-- ==== Sys2Proof/Word.lean ====
section
/-! DEFINITION. The word types of the block: operand and response words, the packed request and response words. -/

namespace Sys2Proof

/-- A 32-bit operand or response data word (rules R31, R60, R64). -/
abbrev Word := BitVec 32

/-- A 4-bit opcode (rule R60). -/
abbrev Opcode := BitVec 4

/-- The packed request word `REQ`, its op in bits 67:64, `b` in bits 63:32 and `a` in bits 31:0 (rule R60). -/
abbrev ReqWord := BitVec 68

/-- The packed response word `RSP`, its code in bits 34:32 and data in bits 31:0 (rule R64). -/
abbrev RspWord := BitVec 35

end Sys2Proof
end

