-- ==== Sys2Proof/Syntax.lean ====
section
/-! DEFINITION. The commands of the block: one constructor for each row of spec/opcode_table.json (rule R62). -/

namespace Sys2Proof

/-- A command with its two operand fields, in the order `a`, `b` of rule R61. Fields that a command ignores
(rule R63) are kept, so that every request word is one term and every term one request word. -/
inductive Instr where
  | apxp (t period : Word)
  | apxf (t period : Word)
  | lutrd (index b : Word)
  | statrd (a b : Word)
  | statclr (mask b : Word)
  | idrd (a b : Word)
  | reserved0 (a b : Word)
  | reserved7 (a b : Word)
  | reserved8 (a b : Word)
  | reserved9 (a b : Word)
  | reservedA (a b : Word)
  | reservedB (a b : Word)
  | reservedC (a b : Word)
  | reservedD (a b : Word)
  | reservedE (a b : Word)
  | reservedF (a b : Word)
deriving DecidableEq, Repr

end Sys2Proof
end

