-- ==== Sys2Proof/WellFormed.lean ====
section
/-! DEFINITION. Which commands are well-formed (all of them, rule R63), and which are canonical. -/

namespace Sys2Proof

/-- Rule R63: "No combination of an opcode with operand values is illegal." The operand widths of rule R60 are in the
types of `Instr`, so nothing is left to check. -/
def Instr.WellFormed : Instr → Bool
  | .apxp _ _ => true
  | .apxf _ _ => true
  | .lutrd _ _ => true
  | .statrd _ _ => true
  | .statclr _ _ => true
  | .idrd _ _ => true
  | .reserved0 _ _ => true
  | .reserved7 _ _ => true
  | .reserved8 _ _ => true
  | .reserved9 _ _ => true
  | .reservedA _ _ => true
  | .reservedB _ _ => true
  | .reservedC _ _ => true
  | .reservedD _ _ => true
  | .reservedE _ _ => true
  | .reservedF _ _ => true

/-- Rule R63: canonical encodings write 0 in the fields rule R62 marks "ignored". A reserved opcode is no command of the
assembler but for `.req`, which writes its operands verbatim, so it has no field to hold at 0. -/
def Instr.Canonical : Instr → Bool
  | .apxp _ _ => true
  | .apxf _ _ => true
  | .lutrd _ b => b == 0
  | .statrd a b => a == 0 && b == 0
  | .statclr _ b => b == 0
  | .idrd a b => a == 0 && b == 0
  | .reserved0 _ _ => true
  | .reserved7 _ _ => true
  | .reserved8 _ _ => true
  | .reserved9 _ _ => true
  | .reservedA _ _ => true
  | .reservedB _ _ => true
  | .reservedC _ _ => true
  | .reservedD _ _ => true
  | .reservedE _ _ => true
  | .reservedF _ _ => true

end Sys2Proof
end

