-- ==== Sys2Proof/Decode.lean ====
section
/-! DEFINITION. From request words to commands and back (rules R60 to R66). -/

namespace Sys2Proof

/-- `REQ[67:64]` (rule R60). -/
def reqOp (w : ReqWord) : Opcode := w.extractLsb' 64 4

/-- `REQ[63:32]` (rule R60). -/
def reqB (w : ReqWord) : Word := w.extractLsb' 32 32

/-- `REQ[31:0]` (rule R60). -/
def reqA (w : ReqWord) : Word := w.extractLsb' 0 32

/-- The packed request word, op most significant, then `b`, then `a` (rule R60). -/
def packReq (op : Opcode) (b a : Word) : ReqWord := op ++ b ++ a

/-- The command of an opcode and its operand fields (rules R62, R65, R66). Total: the last arm is opcode 0xF alone. -/
def decodeFields (op : Opcode) (b a : Word) : Instr :=
  match op.toNat with
  | 0x0 => .reserved0 a b
  | 0x1 => .apxp a b
  | 0x2 => .apxf a b
  | 0x3 => .lutrd a b
  | 0x4 => .statrd a b
  | 0x5 => .statclr a b
  | 0x6 => .idrd a b
  | 0x7 => .reserved7 a b
  | 0x8 => .reserved8 a b
  | 0x9 => .reserved9 a b
  | 0xA => .reservedA a b
  | 0xB => .reservedB a b
  | 0xC => .reservedC a b
  | 0xD => .reservedD a b
  | 0xE => .reservedE a b
  | _ => .reservedF a b

/-- Rule R66: decoding is total on every 68-bit request word. -/
def decode (w : ReqWord) : Instr := decodeFields (reqOp w) (reqB w) (reqA w)

/-- Why a number is no request word. -/
inductive DecodeRefusal where
  /-- Bits above bit 67 are set: a request word has 68 bits and there is no other format (rules R60, R66). Safe. -/
  | notARequestWord
deriving DecidableEq, Repr

/-- Decoding of any number at all: a request word, or a refusal by name. -/
def decodeNumber (n : Nat) : Except DecodeRefusal Instr :=
  if n < 2 ^ 68 then .ok (decode (BitVec.ofNat 68 n)) else .error .notARequestWord

/-- The host's view of the decoder: `w` numbered as spec/opcode_table.json numbers a row's bits, which is the numbering
of `REQ`; the bits above `nbits` are 0 (DESIGN CHOICE, log entry 15). -/
def decodeTableWord (nbits w : Nat) : Option Instr :=
  match decodeNumber (w % 2 ^ nbits) with
  | .ok i => some i
  | .error _ => none

/-- The opcode of a command (rule R62). -/
def Instr.opcode : Instr → Opcode
  | .reserved0 _ _ => 0x0
  | .apxp _ _ => 0x1
  | .apxf _ _ => 0x2
  | .lutrd _ _ => 0x3
  | .statrd _ _ => 0x4
  | .statclr _ _ => 0x5
  | .idrd _ _ => 0x6
  | .reserved7 _ _ => 0x7
  | .reserved8 _ _ => 0x8
  | .reserved9 _ _ => 0x9
  | .reservedA _ _ => 0xA
  | .reservedB _ _ => 0xB
  | .reservedC _ _ => 0xC
  | .reservedD _ _ => 0xD
  | .reservedE _ _ => 0xE
  | .reservedF _ _ => 0xF

/-- Operand field `a` of a command (rule R61). -/
def Instr.fieldA : Instr → Word
  | .apxp t _ => t
  | .apxf t _ => t
  | .lutrd index _ => index
  | .statrd a _ => a
  | .statclr mask _ => mask
  | .idrd a _ => a
  | .reserved0 a _ => a
  | .reserved7 a _ => a
  | .reserved8 a _ => a
  | .reserved9 a _ => a
  | .reservedA a _ => a
  | .reservedB a _ => a
  | .reservedC a _ => a
  | .reservedD a _ => a
  | .reservedE a _ => a
  | .reservedF a _ => a

/-- Operand field `b` of a command (rule R61). -/
def Instr.fieldB : Instr → Word
  | .apxp _ period => period
  | .apxf _ period => period
  | .lutrd _ b => b
  | .statrd _ b => b
  | .statclr _ b => b
  | .idrd _ b => b
  | .reserved0 _ b => b
  | .reserved7 _ b => b
  | .reserved8 _ b => b
  | .reserved9 _ b => b
  | .reservedA _ b => b
  | .reservedB _ b => b
  | .reservedC _ b => b
  | .reservedD _ b => b
  | .reservedE _ b => b
  | .reservedF _ b => b

/-- The request word of a command (rules R60, R62). -/
def encode (i : Instr) : ReqWord := packReq i.opcode i.fieldB i.fieldA

end Sys2Proof
end

