-- ==== Sys2Proof/Machine/Float64.lean ====
section
/-! DEFINITION. IEEE 754 binary64 with round-to-nearest-even, as the offline generator uses it (rules R124, R128; decision D29).
The block itself uses no floating point (rule R6 (g)). -/

namespace Sys2Proof

/-- A binary64 value. `fin neg m e` is `(-1)^neg * m * 2^e`; every operation answers it in the format's own form, with
`2^52 <= m < 2^53`, or with `m < 2^52` and `e = -1074` (subnormals and the two zeros), so equal values are equal data. -/
inductive F64 where
  | nan
  | inf (neg : Bool)
  | fin (neg : Bool) (m : Nat) (e : Int)
deriving DecidableEq, Repr, Inhabited

/-- The least exponent of the last place of a binary64 number. -/
def F64.minExp : Int := -1074

/-- The greatest exponent of the last place of a finite binary64 number. -/
def F64.maxExp : Int := 971

/-- `num / den` to the nearest integer, ties to even (`den > 0`). -/
def roundHalfEven (num den : Nat) : Nat :=
  let q := num / den
  let r := num % den
  if 2 * r < den then q
  else if den < 2 * r then q + 1
  else q + q % 2

/-- `num * 2^(-q) / den` as a numerator and a denominator. -/
def scaleRatio (num den : Nat) (q : Int) : Nat × Nat :=
  if 0 ≤ q then (num, den * 2 ^ q.toNat) else (num * 2 ^ (-q).toNat, den)

/-- `floor (log2 (num / den))` for `num, den > 0`: the difference of the bit lengths or one less. -/
def ratioLog2 (num den : Nat) : Int :=
  let l : Int := (Nat.log2 num : Int) - (Nat.log2 den : Int)
  let (n, d) := scaleRatio num den l
  if d ≤ n then l else l - 1

/-- The binary64 number nearest to `(-1)^neg * num / den`, ties to even, infinity above the range (`den > 0`). -/
def F64.ofRatio (neg : Bool) (num den : Nat) : F64 :=
  if num = 0 then .fin neg 0 F64.minExp
  else
    let q := max (ratioLog2 num den - 52) F64.minExp
    let (n, d) := scaleRatio num den q
    let m := roundHalfEven n d
    let (m, q) := if m = 2 ^ 53 then (2 ^ 52, q + 1) else (m, q)
    if F64.maxExp < q then .inf neg else .fin neg m q

/-- The binary64 number nearest to an integer. -/
def F64.ofInt (n : Int) : F64 := F64.ofRatio (decide (n < 0)) n.natAbs 1

/-- The magnitude `m * 2^e` as a numerator and a denominator. -/
def magnitude (m : Nat) (e : Int) : Nat × Nat :=
  if m = 0 then (0, 1) else if 0 ≤ e then (m * 2 ^ e.toNat, 1) else (m, 2 ^ (-e).toNat)

/-- The sign's factor. -/
def signFactor (neg : Bool) : Int := if neg then -1 else 1

/-- The number that a finite binary64 value stands for. -/
def F64.value : F64 → Option ℚ
  | .fin s m e => some ((signFactor s : ℚ) * m * (2 : ℚ) ^ e)
  | _ => none

/-- Negation: the sign bit flips. -/
def F64.neg : F64 → F64
  | .nan => .nan
  | .inf s => .inf (!s)
  | .fin s m e => .fin (!s) m e

/-- Addition, correctly rounded. An exact zero sum is +0 unless both terms are negative zeros. -/
def F64.add : F64 → F64 → F64
  | .nan, _ => .nan
  | _, .nan => .nan
  | .inf s, .inf t => if s = t then .inf s else .nan
  | .inf s, .fin _ _ _ => .inf s
  | .fin _ _ _, .inf t => .inf t
  | .fin s m e, .fin t k f =>
    let (n1, d1) := magnitude m e
    let (n2, d2) := magnitude k f
    let sum : Int := signFactor s * ((n1 * d2 : Nat) : Int) + signFactor t * ((n2 * d1 : Nat) : Int)
    if sum = 0 then .fin (s && t) 0 F64.minExp
    else F64.ofRatio (decide (sum < 0)) sum.natAbs (d1 * d2)

/-- Subtraction, correctly rounded. -/
def F64.sub (x y : F64) : F64 := x.add y.neg

/-- Multiplication, correctly rounded. -/
def F64.mul : F64 → F64 → F64
  | .nan, _ => .nan
  | _, .nan => .nan
  | .inf s, .inf t => .inf (s != t)
  | .inf s, .fin t k _ => if k = 0 then .nan else .inf (s != t)
  | .fin s m _, .inf t => if m = 0 then .nan else .inf (s != t)
  | .fin s m e, .fin t k f =>
    let (n1, d1) := magnitude m e
    let (n2, d2) := magnitude k f
    F64.ofRatio (s != t) (n1 * n2) (d1 * d2)

/-- Division, correctly rounded. -/
def F64.div : F64 → F64 → F64
  | .nan, _ => .nan
  | _, .nan => .nan
  | .inf _, .inf _ => .nan
  | .inf s, .fin t _ _ => .inf (s != t)
  | .fin s _ _, .inf t => .fin (s != t) 0 F64.minExp
  | .fin s m e, .fin t k f =>
    if k = 0 then (if m = 0 then .nan else .inf (s != t))
    else
      let (n1, d1) := magnitude m e
      let (n2, d2) := magnitude k f
      F64.ofRatio (s != t) (n1 * d2) (d1 * n2)

/-- Truncation toward zero to an integer (rule R125): none for NaN and the infinities, from which no integer results. -/
def F64.trunc : F64 → Option Int
  | .nan => none
  | .inf _ => none
  | .fin s m e =>
    let (n, d) := magnitude m e
    some (signFactor s * ((n / d : Nat) : Int))

end Sys2Proof
end

