-- ==== Sys2Proof/Config.lean ====
section
/-! DEFINITION. What is fixed for a block: its configuration; and the values the spec leaves open, as constants without a body. -/

namespace Sys2Proof

/-- The two configurations of the block, chosen at elaboration time and never at run time (rule R2). -/
inductive Cfg where
  /-- W = 8, N = 8. -/
  | pli8
  /-- W = 16, N = 16. -/
  | pli16
deriving DecidableEq, Repr

/-- What `rsp_data` holds while `rsp_valid = 0` (rule R35, 93 U10): a free value for each value of the free-value counter
(DESIGN CHOICE, log entry 6). -/
opaque Config.freeRspData : Nat → BitVec 32

/-- What `rsp_code` holds while `rsp_valid = 0` (rule R35, 93 U10): a free value for each value of the free-value counter
(DESIGN CHOICE, log entry 6). -/
opaque Config.freeRspCode : Nat → BitVec 3

/-- The host library's exponential (rule R128): open here; `libraryExp` holds it to a few units in the last place of the
exponential where the generator calls it (PRESUMED, log entry 21). -/
opaque Config.libExp : F64 → F64

/-- The host library's sine (rule R128): open here; `librarySin` holds it to a few units in the last place of the sine where
the generator calls it (PRESUMED, log entry 21). -/
opaque Config.libSin : F64 → F64

/-- The open parameter `REF_CURVE_16` of rule R129, as a function of t and period (DESIGN CHOICE, log entry 13). -/
opaque Config.refCurve16 : F64 → F64 → F64

/-- The text before the first element of the generator's array declaration, of an element width and a length: the spelling
is any value (rule R127, 93 U20; DESIGN CHOICE, log entry 22). -/
opaque Config.arrayOpening : Nat → Nat → List Char

/-- The text between an element and the next, of the element's index (rule R127, 93 U20; DESIGN CHOICE, log entry 22). -/
opaque Config.arraySeparator : Nat → List Char

/-- The text after the last element (rule R127, 93 U20; DESIGN CHOICE, log entry 22). -/
opaque Config.arrayClosing : Nat → Nat → List Char

end Sys2Proof
end

