-- ==== Sys2Proof/Machine/Parameters.lean ====
section
/-! DEFINITION. The derived constants of a configuration (rules R2 to R4, R7). -/

namespace Sys2Proof

/-- W: the brightness and LUT word width in bits (rule R2). -/
def Cfg.width : Cfg → Nat
  | .pli8 => 8
  | .pli16 => 16

/-- N: the sample count, the number of segments (rule R2). -/
def Cfg.samples : Cfg → Nat
  | .pli8 => 8
  | .pli16 => 16

/-- S: the shift constant `8 - log2(N)` (rule R3). -/
def Cfg.shift (c : Cfg) : Nat := 8 - Nat.log2 c.samples

/-- MAX: the saturation value `2^W - 1` (rule R4). -/
def Cfg.satMax (c : Cfg) : Nat := 2 ^ c.width - 1

/-- The configuration with a given sample count and width, where there is one: no mixed pairing exists (rules R2, R122 (c)). -/
def Cfg.ofPair (n w : Nat) : Option Cfg :=
  if n = 8 ∧ w = 8 then some .pli8
  else if n = 16 ∧ w = 16 then some .pli16
  else none

end Sys2Proof
end

