-- ==== Sys2Proof/Machine/Table.lean ====
section
/-! DEFINITION. The lookup table's well-formedness check `LUT_WF` (rule R24). -/

namespace Sys2Proof.Machine

/-- The five checks of `LUT_WF`, by the names rule R24 gives them. -/
inductive LutCheck where
  | len
  | range
  | zero
  | mono
  | sent
deriving DecidableEq, Repr

/-- Whether a table passes one check of rule R24 (a) to (e). -/
def LutCheck.passes (cfg : Cfg) (lut : List Nat) : LutCheck → Bool
  | .len => decide (lut.length = cfg.samples + 1)
  | .range => lut.all fun v => decide (v ≤ cfg.satMax)
  | .zero => decide (lut[0]? = some 0)
  | .mono => (List.range cfg.samples).all fun i => decide (lut.getD i 0 ≤ lut.getD (i + 1) 0)
  | .sent => decide (lut[cfg.samples]? = some cfg.satMax)

/-- All five checks, in the order of rule R24. -/
def LutCheck.every : List LutCheck := [.len, .range, .zero, .mono, .sent]

/-- `LUT_WF` (rule R24): the table passes all five checks. -/
def lutWf (cfg : Cfg) (lut : List Nat) : Bool :=
  LutCheck.every.all fun c => c.passes cfg lut

/-- The checks a table fails, in the order of rule R24. -/
def failingChecks (cfg : Cfg) (lut : List Nat) : List LutCheck :=
  LutCheck.every.filter fun c => !c.passes cfg lut

end Sys2Proof.Machine
end

