-- ==== Sys2Proof/Machine/State.lean ====
section
/-! DEFINITION. The state of the block as plain data, its reasons to stop, and its state after reset. -/

namespace Sys2Proof.Machine

/-- The errors a command can raise (rules R26, R141). -/
inductive Err where
  /-- A reserved opcode. -/
  | ill
  /-- `LUTRD` with an index above N. -/
  | idx
  /-- An interpolation with `period = 0`. -/
  | pzero
  /-- `APXP` with a segment width of 0. -/
  | divz
  /-- `APXP` whose exact value exceeds MAX. -/
  | ovr
deriving DecidableEq, Repr

/-- A response: its data, and `none` for code OK or the error that the command raised, at most one (rules R15, R64,
R140, R142). -/
structure Response where
  data : Word
  err : Option Err
deriving DecidableEq, Repr

/-- An entry of the in-flight queue `Q`: the response, computed when the command executed (rule R29), and for how many
cycles it has been in `Q` (rule R32; DEDUCED, log entry 5). -/
structure QEntry where
  rsp : Response
  age : Nat
deriving DecidableEq, Repr

/-- The input pins at one rising edge of `clk` (rule R31). -/
structure Pins where
  rstN : Bool
  reqValid : Bool
  reqOp : Opcode
  reqA : Word
  reqB : Word
  rspReady : Bool
deriving DecidableEq, Repr

/-- The elaboration parameters of a block (rules R7, R34): fixed, never changed by a step (DESIGN CHOICE, log entry 1). The table is
paired with the proof that it passes `LUT_WF`, as rule R24 asks; `LAT` and `QDEPTH` are any integers >= 1 (rule R7). -/
structure Params where
  cfg : Cfg
  lut : List Nat
  lutOk : lutWf cfg lut = true
  lat : Nat
  latPos : 1 ≤ lat
  qdepth : Nat
  qdepthPos : 1 ≤ qdepth
deriving DecidableEq, Repr

/-- The state of the block and, beside it, what the host is to drive. -/
structure State where
  /-- The elaboration parameters, `LUT` and the constants of `ID` among them (rules R23, R28, R34). -/
  params : Params
  /-- STATUS (rule R26). Bits 31:5 are hardwired to 0 in the operations that read and write it. -/
  status : Word
  /-- The in-flight queue `Q`, oldest entry first (rule R29). -/
  queue : List QEntry
  /-- The output register `req_ready` (rules R31, R32). -/
  reqReady : Bool
  /-- The output register `rsp_valid` (rules R31, R32). -/
  rspValid : Bool
  /-- The output register `rsp_data` (rule R31). -/
  rspData : Word
  /-- The output register `rsp_code` (rule R31). -/
  rspCode : BitVec 3
  /-- Whether reset has been applied since power-up (rule R163; the model's own field, DEDUCED, log entry 7). -/
  resetDone : Bool
  /-- What the host drives on the input pins at the coming edges, the next edge first (rule R33; the model's own field,
  DESIGN CHOICE, log entry 4). -/
  inputs : List Pins
  /-- The free-value counter (the model's own field, DESIGN CHOICE, log entry 6). -/
  freeCtr : Nat
deriving DecidableEq, Repr

/-- Why a step stops with a fault. The block itself takes no trap (rule R144). -/
inductive Fault where
  /-- Raised by `step` alone, at an edge with `rst_n = 1` before reset was first applied: rule R163 "gives the block no
  step before it". Safe: the unreset state has no meaning, so no claim reaches past it. -/
  | beforeReset
deriving DecidableEq, Repr

/-- Why a step is refused. -/
inductive Refusal where
  /-- Raised by an arm of `exec` for an instruction without a meaning; no arm does. Safe: nothing can be proved of what
  such an instruction does. -/
  | notModelled (mnemonic : String)
deriving DecidableEq, Repr

/-- The state right after reset of a block elaborated with `p` (rule R35). `rsp_data` and `rsp_code` are unspecified
there; the 0 they hold is the model's (DESIGN CHOICE, log entry 6). -/
def State.resetOf (p : Params) : State where
  params := p
  status := 0
  queue := []
  reqReady := false
  rspValid := false
  rspData := 0
  rspCode := 0
  resetDone := true
  inputs := []
  freeCtr := 0

/-- The elaboration that `State.reset` stands for: `PLI8` with the source's table (rule R25) and the least `LAT` and
`QDEPTH`. The spec gives no default of any of these (DESIGN CHOICE, log entry 2); claims are stated for every `Params`. -/
def Params.sample : Params where
  cfg := .pli8
  lut := [0, 3, 13, 33, 68, 118, 179, 232, 255]
  lutOk := by decide
  lat := 1
  latPos := by decide
  qdepth := 1
  qdepthPos := by decide

/-- The state right after reset, of the elaboration `Params.sample` (DESIGN CHOICE, log entry 2). -/
def State.reset : State := State.resetOf Params.sample

end Sys2Proof.Machine
end

