-- ==== Sys2Proof/Machine/Operands.lean ====
section
/-! DEFINITION. Operand assembly and result widths (rules R61, R64). -/

namespace Sys2Proof.Machine

/-- An operand taken as it is: an unsigned 32-bit integer, with no extension, scaling or packing (rule R61). -/
def operandValue (x : Word) : Nat := x.toNat

/-- The clear mask of `STATCLR`: `a[4:0]`, the other bits ignored (rules R61, R104). -/
def clearMask (a : Word) : Word := (a.extractLsb' 0 5).setWidth 32

/-- `zext_32` of a W-bit result (rules R41, R64). -/
def zext32 (v : Nat) : Word := BitVec.ofNat 32 v

end Sys2Proof.Machine
end

