-- ==== Sys2Proof/Machine/Flags.lean ====
section
/-! DEFINITION. STATUS, the response codes and the packed response (rules R26, R27, R64, R140). -/

namespace Sys2Proof.Machine

/-- The STATUS bit of an error (rule R26). -/
def Err.bit : Err → Nat
  | .ill => 0
  | .idx => 1
  | .pzero => 2
  | .divz => 3
  | .ovr => 4

/-- The response code of an error: each code e sets STATUS bit e - 1 (rule R140). -/
def Err.code (e : Err) : Nat := e.bit + 1

/-- The 3-bit response code; 0 means no error (rules R64, R140). -/
def Response.code (r : Response) : BitVec 3 :=
  match r.err with
  | none => 0
  | some e => BitVec.ofNat 3 e.code

/-- The packed response word `RSP` (rule R64). -/
def Response.pack (r : Response) : RspWord := r.code ++ r.data

/-- The bits of STATUS that exist, 4 to 0; bits 31:5 are hardwired to 0 (rule R26). -/
def statusBits : Word := 0x1F

/-- STATUS as software reads it: bits 31:5 read as 0 (rule R26; DEDUCED, log entry 17). -/
def readStatus (s : State) : Word := s.status &&& statusBits

/-- A write of STATUS: writes of bits 31:5 are ignored (rule R26; DEDUCED, log entry 17). -/
def writeStatus (v : Word) (s : State) : State := { s with status := v &&& statusBits }

/-- The STATUS word with only the bit of one error set. -/
def Err.mask (e : Err) : Word := 1#32 <<< e.bit

/-- Setting the STATUS bit of an error; no other bit changes, and a set bit stays set (rule R27). -/
def setStatusBit (e : Err) (s : State) : State := writeStatus (readStatus s ||| e.mask) s

/-- Clearing STATUS bits by a mask (rule R104). -/
def clearStatusBits (mask : Word) (s : State) : State := writeStatus (readStatus s &&& ~~~mask) s

end Sys2Proof.Machine
end

