-- ==== Sys2Proof/Machine/Ops.lean ====
section
/-! DEFINITION. The shared operations: reading the LUT and ID, raising an error and completing a command, and what an edge
of `clk` does to the queue and the output registers. -/

namespace Sys2Proof.Machine

/-- The canonical-form check of the block's one addressable space, the LUT: `LUT_WF` (rules R24, R40; DESIGN CHOICE, log entry 9). -/
def Memory.wf (p : Params) : Bool := lutWf p.cfg p.lut

/-- `MemRead(i, 1)`: LUT word i, for `0 <= i <= N` (rules R14, R41). Every caller checks or has shown the range
(rules R44, R86). -/
def memRead (p : Params) (i : Nat) : Nat := p.lut.getD i 0

/-- The read-only identification register, from its fields (rule R28): `REV`, reserved, `S`, `N`, `W`. -/
def readId (p : Params) : Word :=
  0x01#8 ++ 0#4 ++ BitVec.ofNat 4 p.cfg.shift ++ BitVec.ofNat 8 p.cfg.samples ++ BitVec.ofNat 8 p.cfg.width

/-- Appending a command's response to `Q` (rule R45). -/
def appendResponse (r : Response) (s : State) : State := { s with queue := s.queue ++ [{ rsp := r, age := 0 }] }

/-- The STATUS effect of `raise E` (rules R15, R27); a command that raises nothing leaves STATUS unchanged. There is no
trap, no vector and no change of control (rule R144). -/
def raiseErr (e : Option Err) (s : State) : State :=
  match e with
  | none => s
  | some e => setStatusBit e s

/-- The end of a command, all at once (rules R15, R45): its error's STATUS bit is set, and its response, with the error's
code, is appended to `Q`. -/
def completeCommand (r : Response) (s : State) : State := appendResponse r (raiseErr r.err s)

/-- The pins of a host that does nothing: no reset, no request, no response taken (rule R155; DESIGN CHOICE, log entry 4). -/
def Pins.idle : Pins := { rstN := true, reqValid := false, reqOp := 0, reqA := 0, reqB := 0, rspReady := false }

/-- The request word on the pins (rule R60). -/
def Pins.request (p : Pins) : ReqWord := packReq p.reqOp p.reqB p.reqA

/-- The pins sampled at the coming edge (DESIGN CHOICE, log entry 4). -/
def State.pins (s : State) : Pins := s.inputs.headD Pins.idle

/-- Whether a request transfers at the coming edge (rule R32). -/
def State.requestTransfers (s : State) : Bool := s.pins.rstN && s.pins.reqValid && s.reqReady

/-- Whether a response transfers at the coming edge (rule R32). -/
def State.responseTransfers (s : State) : Bool := s.pins.rstN && s.rspValid && s.pins.rspReady

/-- The response side of an edge: a response that transfers leaves `Q`, oldest first (rules R29, R46). -/
def takeResponse (s : State) : State := if s.responseTransfers then { s with queue := s.queue.tail } else s

/-- One more cycle in `Q`. -/
def QEntry.tick (e : QEntry) : QEntry := { e with age := e.age + 1 }

/-- The response that the block presents: the oldest entry of `Q`, once it has been in `Q` for at least `LAT` cycles
(rules R32, R168). -/
def presented (lat : Nat) (q : List QEntry) : Option Response :=
  match q with
  | [] => none
  | e :: _ => if lat ≤ e.age then some e.rsp else none

/-- The output registers after an edge with `rst_n = 1` (rules R31, R32). While `rsp_valid = 0`, `rsp_data` and `rsp_code`
are unspecified (rule R35): free values. -/
def driveOutputs (s : State) : State :=
  match presented s.params.lat s.queue with
  | some r =>
    { s with reqReady := decide (s.queue.length < s.params.qdepth), rspValid := true, rspData := r.data, rspCode := r.code }
  | none =>
    { s with
      reqReady := decide (s.queue.length < s.params.qdepth), rspValid := false,
      rspData := Config.freeRspData s.freeCtr, rspCode := Config.freeRspCode s.freeCtr }

/-- What an edge does to `Q`, the host's pins and the free-value counter beside the transfers: every entry has been in `Q`
for one more cycle, and the next pins come up. -/
def advanceCycle (s : State) : State :=
  { s with queue := s.queue.map QEntry.tick, inputs := s.inputs.tail, freeCtr := s.freeCtr + 1 }

/-- The end of an edge with `rst_n = 1`. -/
def finishEdge (s : State) : State := driveOutputs (advanceCycle s)

/-- An edge with `rst_n = 0` (rules R35, R160 to R162): STATUS cleared, `Q` emptied, `req_ready` and `rsp_valid` 0;
`rsp_data` and `rsp_code` unspecified; the LUT and ID untouched. -/
def resetEdge (s : State) : State :=
  { s with
    status := 0, queue := [], reqReady := false, rspValid := false,
    rspData := Config.freeRspData (s.freeCtr + 1), rspCode := Config.freeRspCode (s.freeCtr + 1),
    resetDone := true, inputs := s.inputs.tail, freeCtr := s.freeCtr + 1 }

/-- Room for one more command: where `Q` is full, its oldest responses leave, as if the host had taken them, and the
outputs follow; `req_ready` is 1 (DESIGN CHOICE, log entry 10). -/
def makeRoom (s : State) : State :=
  if s.queue.length < s.params.qdepth then { s with reqReady := true }
  else driveOutputs { s with queue := s.queue.drop (s.queue.length + 1 - s.params.qdepth) }

/-- A request put on the pins of the coming edge; `rsp_ready` and the later pins stay as they are (DESIGN CHOICE, log entry 10). -/
def placeRequest (w : ReqWord) (s : State) : State :=
  { s with
    resetDone := true,
    inputs :=
      { s.pins with rstN := true, reqValid := true, reqOp := reqOp w, reqA := reqA w, reqB := reqB w } :: s.inputs.tail }

end Sys2Proof.Machine
end

