-- ==== Sys2Proof/Machine/Interpolate.lean ====
section
/-! DEFINITION. The interpolation commands APXP and APXF (rules R80 to R94). Every intermediate is an exact natural number
(rule R83); the subtractions never go below zero (rules R24 (d), R87, R88). -/

namespace Sys2Proof.Machine

/-- The edge rule's test, with `t + 1` exact (rule R80). -/
def edgeRule (t period : Nat) : Bool := decide (period ≤ t + 1)

/-- The edge rule's result: MAX, raising `PZERO` when `period = 0` (rules R80 to R82). -/
def edgeResult (c : Cfg) (period : Nat) : Response :=
  { data := zext32 c.satMax, err := if period = 0 then some .pzero else none }

/-- `APXP`'s segment index `i = (t * N) div period` (rule R84). -/
def apxpIndex (c : Cfg) (t period : Nat) : Nat := t * c.samples / period

/-- `APXP`'s segment start `x0 = (i * period) div N` (rule R84). -/
def apxpStart (c : Cfg) (t period : Nat) : Nat := apxpIndex c t period * period / c.samples

/-- `APXP`'s segment width `dx = period div N` (rule R84). -/
def apxpWidth (c : Cfg) (period : Nat) : Nat := period / c.samples

/-- `APXP`'s exact value `v = y0 + ((t - x0) * (y1 - y0)) div dx` (rule R84). -/
def apxpExact (p : Params) (t period : Nat) : Nat :=
  let y0 := memRead p (apxpIndex p.cfg t period)
  let y1 := memRead p (apxpIndex p.cfg t period + 1)
  y0 + (t - apxpStart p.cfg t period) * (y1 - y0) / apxpWidth p.cfg period

/-- Precise interpolation (rule R84): `DIVZ` with data 0 when `dx = 0`, `OVR` with `v mod 2^W` when `v > MAX`. -/
def apxpResult (p : Params) (t period : Nat) : Response :=
  if edgeRule t period then edgeResult p.cfg period
  else if apxpWidth p.cfg period = 0 then { data := 0, err := some .divz }
  else
    { data := zext32 (apxpExact p t period % 2 ^ p.cfg.width)
      err := if p.cfg.satMax < apxpExact p t period then some .ovr else none }

/-- `APXF`'s scaled time `tp = (t << 8) div period` (rule R85). -/
def apxfScaled (t period : Nat) : Nat := (t <<< 8) / period

/-- `APXF`'s segment index `i = tp >> S` (rule R85). -/
def apxfIndex (c : Cfg) (t period : Nat) : Nat := apxfScaled t period >>> c.shift

/-- `APXF`'s segment start `x0 = i << S`, in 1/256ths of the period (rule R85). -/
def apxfStart (c : Cfg) (t period : Nat) : Nat := apxfIndex c t period <<< c.shift

/-- `APXF`'s value `v = y0 + (((tp - x0) * (y1 - y0)) >> S)`: the shift applies to the product alone (rule R85, C5). -/
def apxfExact (p : Params) (t period : Nat) : Nat :=
  let y0 := memRead p (apxfIndex p.cfg t period)
  let y1 := memRead p (apxfIndex p.cfg t period + 1)
  y0 + ((apxfScaled t period - apxfStart p.cfg t period) * (y1 - y0)) >>> p.cfg.shift

/-- Fast-path interpolation (rule R85). -/
def apxfResult (p : Params) (t period : Nat) : Response :=
  if edgeRule t period then edgeResult p.cfg period
  else { data := zext32 (apxfExact p t period), err := none }

/-- `APXP` (rule R84). -/
def execApxp (t period : Word) (s : State) : Host.Outcome State Fault Refusal :=
  .next (completeCommand (apxpResult s.params (operandValue t) (operandValue period)) s)

/-- `APXF` (rule R85). -/
def execApxf (t period : Word) (s : State) : Host.Outcome State Fault Refusal :=
  .next (completeCommand (apxfResult s.params (operandValue t) (operandValue period)) s)

end Sys2Proof.Machine
end

