-- ==== Sys2Proof/Machine/RegisterAccess.lean ====
section
/-! DEFINITION. The table and register access commands LUTRD, STATRD, STATCLR, IDRD (rules R100 to R105). -/

namespace Sys2Proof.Machine

/-- What `LUTRD` answers for an index: the word, or data 0 and `IDX` above N (rule R100). -/
def lutrdResult (p : Params) (index : Nat) : Response :=
  if p.cfg.samples < index then { data := 0, err := some .idx }
  else { data := zext32 (memRead p index), err := none }

/-- `LUTRD` (rule R100); `b` is ignored (rule R63). -/
def execLutrd (index _b : Word) (s : State) : Host.Outcome State Fault Refusal :=
  .next (completeCommand (lutrdResult s.params (operandValue index)) s)

/-- `STATRD` (rule R102); both operands are ignored (rule R63). -/
def execStatrd (_a _b : Word) (s : State) : Host.Outcome State Fault Refusal :=
  .next (completeCommand { data := readStatus s, err := none } s)

/-- `STATCLR` (rule R104): the response is STATUS before the clear; `b` is ignored (rule R63). -/
def execStatclr (mask _b : Word) (s : State) : Host.Outcome State Fault Refusal :=
  .next (completeCommand { data := readStatus s, err := none } (clearStatusBits (clearMask mask) s))

/-- `IDRD` (rule R105); both operands are ignored (rule R63). -/
def execIdrd (_a _b : Word) (s : State) : Host.Outcome State Fault Refusal :=
  .next (completeCommand { data := readId s.params, err := none } s)

end Sys2Proof.Machine
end

