-- ==== Sys2Proof/Machine/Reserved.lean ====
section
/-! DEFINITION. The reserved opcodes 0x0 and 0x7 to 0xF (rules R65, R106). -/

namespace Sys2Proof.Machine

/-- What a reserved opcode does: data 0 and `ILL`, nothing else (rule R106). -/
def reservedCommand (s : State) : State := completeCommand { data := 0, err := some .ill } s

/-- Reserved opcode 0x0 (rule R106); both operands are ignored. -/
def execReserved0 (_a _b : Word) (s : State) : Host.Outcome State Fault Refusal := .next (reservedCommand s)

/-- Reserved opcode 0x7 (rule R106); both operands are ignored. -/
def execReserved7 (_a _b : Word) (s : State) : Host.Outcome State Fault Refusal := .next (reservedCommand s)

/-- Reserved opcode 0x8 (rule R106); both operands are ignored. -/
def execReserved8 (_a _b : Word) (s : State) : Host.Outcome State Fault Refusal := .next (reservedCommand s)

/-- Reserved opcode 0x9 (rule R106); both operands are ignored. -/
def execReserved9 (_a _b : Word) (s : State) : Host.Outcome State Fault Refusal := .next (reservedCommand s)

/-- Reserved opcode 0xA (rule R106); both operands are ignored. -/
def execReservedA (_a _b : Word) (s : State) : Host.Outcome State Fault Refusal := .next (reservedCommand s)

/-- Reserved opcode 0xB (rule R106); both operands are ignored. -/
def execReservedB (_a _b : Word) (s : State) : Host.Outcome State Fault Refusal := .next (reservedCommand s)

/-- Reserved opcode 0xC (rule R106); both operands are ignored. -/
def execReservedC (_a _b : Word) (s : State) : Host.Outcome State Fault Refusal := .next (reservedCommand s)

/-- Reserved opcode 0xD (rule R106); both operands are ignored. -/
def execReservedD (_a _b : Word) (s : State) : Host.Outcome State Fault Refusal := .next (reservedCommand s)

/-- Reserved opcode 0xE (rule R106); both operands are ignored. -/
def execReservedE (_a _b : Word) (s : State) : Host.Outcome State Fault Refusal := .next (reservedCommand s)

/-- Reserved opcode 0xF (rule R106); both operands are ignored. -/
def execReservedF (_a _b : Word) (s : State) : Host.Outcome State Fault Refusal := .next (reservedCommand s)

end Sys2Proof.Machine
end

