-- ==== Sys2Proof/Machine/Dispatch.lean ====
section
/-! DEFINITION. The meaning of every command: one atomic execution of the block (rule R45). -/

namespace Sys2Proof.Machine

def exec (i : Instr) (s : State) : Host.Outcome State Fault Refusal :=
  match i with
  | .apxp t period => Sys2Proof.Machine.execApxp t period s
  | .apxf t period => Sys2Proof.Machine.execApxf t period s
  | .lutrd index b => Sys2Proof.Machine.execLutrd index b s
  | .statrd a b => Sys2Proof.Machine.execStatrd a b s
  | .statclr mask b => Sys2Proof.Machine.execStatclr mask b s
  | .idrd a b => Sys2Proof.Machine.execIdrd a b s
  | .reserved0 a b => Sys2Proof.Machine.execReserved0 a b s
  | .reserved7 a b => Sys2Proof.Machine.execReserved7 a b s
  | .reserved8 a b => Sys2Proof.Machine.execReserved8 a b s
  | .reserved9 a b => Sys2Proof.Machine.execReserved9 a b s
  | .reservedA a b => Sys2Proof.Machine.execReservedA a b s
  | .reservedB a b => Sys2Proof.Machine.execReservedB a b s
  | .reservedC a b => Sys2Proof.Machine.execReservedC a b s
  | .reservedD a b => Sys2Proof.Machine.execReservedD a b s
  | .reservedE a b => Sys2Proof.Machine.execReservedE a b s
  | .reservedF a b => Sys2Proof.Machine.execReservedF a b s

end Sys2Proof.Machine
end

