-- ==== Sys2Proof/Machine/Step.lean ====
section
/-! DEFINITION. One step of the block: one rising edge of `clk`. -/

namespace Sys2Proof.Machine

/-- One rising edge of `clk` (DEDUCED, log entry 3). With `rst_n = 0` the reset values apply and nothing transfers (rule R160);
before the first reset there is no other step (rule R163). Otherwise the oldest response leaves if it transfers, and a
request that transfers is decoded and executed as one atomic step (rules R32, R45; DEDUCED, log entry 18); then the cycle ends. -/
def step (s : State) : Host.Outcome State Fault Refusal :=
  if s.pins.rstN = false then .next (resetEdge s)
  else if s.resetDone = false then .fault .beforeReset
  else if s.requestTransfers then
    match exec (decode s.pins.request) (takeResponse s) with
    | .next t => .next (finishEdge t)
    | .fault f => .fault f
    | .refused r => .refused r
  else .next (finishEdge (takeResponse s))

/-- `s` with a request word where the next step takes its command: on the pins of the coming edge, with `req_ready = 1`
(DESIGN CHOICE, log entry 10). `w` is numbered as `REQ` is; its bits above `nbits`, and above bit 67, are 0. -/
def State.withFetchWord (s : State) (nbits w : Nat) : State :=
  placeRequest (BitVec.ofNat 68 (w % 2 ^ nbits)) (makeRoom s)

end Sys2Proof.Machine
end

