-- ==== Sys2Proof/Machine/Assembler.lean ====
section
/-! DEFINITION. The assembler of command streams: its lines, their request words, its text (rules R60, R64, R67, R68). -/

namespace Sys2Proof.Machine

/-- A line of the assembler: a command, the directive `.req`, or a pseudo-instruction. Operands are numbers as written. -/
inductive AsmLine where
  | apxp (t period : Nat)
  | apxf (t period : Nat)
  | lutrd (index : Nat)
  | statrd
  | statclr (mask : Nat)
  | idrd
  | req (op b a : Nat)
  | clrall
  | apx (t period : Nat)
  | lutrdall
deriving DecidableEq, Repr

/-- Why the assembler refuses a line (rule R67). Every one is safe: no request word results. -/
inductive AsmRefusal where
  /-- An operand does not fit in 32 bits, or the `op` of `.req` in 4 (rule R67). -/
  | operand
  /-- A word that is no mnemonic of rules R67 and R68 (DESIGN CHOICE, log entry 14). -/
  | mnemonic
  /-- An operand list that is not the mnemonic's (DESIGN CHOICE, log entry 14). -/
  | operandCount
  /-- An operand that is no decimal or `0x` number (DESIGN CHOICE, log entry 14). -/
  | number
deriving DecidableEq, Repr

/-- A request word from its three fields, if each fits (rule R67). -/
def assembleFields (op b a : Nat) : Except AsmRefusal ReqWord :=
  if op < 2 ^ 4 ∧ b < 2 ^ 32 ∧ a < 2 ^ 32 then
    .ok (packReq (BitVec.ofNat 4 op) (BitVec.ofNat 32 b) (BitVec.ofNat 32 a))
  else .error .operand

/-- One request word, as a stream of one. -/
def oneWord (r : Except AsmRefusal ReqWord) : Except AsmRefusal (List ReqWord) :=
  match r with
  | .ok w => .ok [w]
  | .error e => .error e

/-- The expansion of `lutrdall` for the indexes of a list (rule R68). -/
def lutrdWords (indexes : List Nat) : List ReqWord := indexes.map fun i => packReq 0x3 0 (BitVec.ofNat 32 i)

/-- The request words of a line (rules R67, R68). The configuration matters to `lutrdall` alone: N+1 commands. -/
def assemble (c : Cfg) : AsmLine → Except AsmRefusal (List ReqWord)
  | .apxp t period => oneWord (assembleFields 0x1 period t)
  | .apxf t period => oneWord (assembleFields 0x2 period t)
  | .lutrd index => oneWord (assembleFields 0x3 0 index)
  | .statrd => oneWord (assembleFields 0x4 0 0)
  | .statclr mask => oneWord (assembleFields 0x5 0 mask)
  | .idrd => oneWord (assembleFields 0x6 0 0)
  | .req op b a => oneWord (assembleFields op b a)
  | .clrall => oneWord (assembleFields 0x5 0 0x1F)
  | .apx t period => oneWord (assembleFields 0x2 period t)
  | .lutrdall => .ok (lutrdWords (List.range (c.samples + 1)))

/-- Whether a character separates words (DESIGN CHOICE, log entry 14). -/
def isBlank (ch : Char) : Bool := ch == ' ' || ch == '\t'

/-- The characters without the blanks at either end. -/
def trimBlanks (cs : List Char) : List Char := ((cs.dropWhile isBlank).reverse.dropWhile isBlank).reverse

/-- The pieces of a text between commas. -/
def splitCommas : List Char → List (List Char)
  | [] => [[]]
  | ch :: cs =>
    match splitCommas cs with
    | [] => [[ch]]
    | piece :: pieces => if ch == ',' then [] :: piece :: pieces else (ch :: piece) :: pieces

/-- The value of a digit, in decimal or hexadecimal. -/
def digitValue (ch : Char) : Option Nat :=
  if '0' ≤ ch ∧ ch ≤ '9' then some (ch.toNat - '0'.toNat)
  else if 'a' ≤ ch ∧ ch ≤ 'f' then some (ch.toNat - 'a'.toNat + 10)
  else if 'A' ≤ ch ∧ ch ≤ 'F' then some (ch.toNat - 'A'.toNat + 10)
  else none

/-- The number that digits write in a base, after a value read so far. -/
def digitsValue (base : Nat) : Nat → List Char → Option Nat
  | acc, [] => some acc
  | acc, ch :: cs =>
    match digitValue ch with
    | none => none
    | some d => if d < base then digitsValue base (acc * base + d) cs else none

/-- A number in decimal or with a `0x` prefix (rule R67), of at least one digit; a hexadecimal digit may be of either case
(DESIGN CHOICE, log entry 14). -/
def parseNumber (cs : List Char) : Option Nat :=
  match cs with
  | [] => none
  | '0' :: 'x' :: [] => none
  | '0' :: 'x' :: ds => digitsValue 16 0 ds
  | ds => digitsValue 10 0 ds

/-- The numbers of an operand list; blanks around an operand do not matter (DESIGN CHOICE, log entry 14). -/
def parseNumbers : List (List Char) → Option (List Nat)
  | [] => some []
  | p :: ps =>
    match parseNumber (trimBlanks p), parseNumbers ps with
    | some n, some ns => some (n :: ns)
    | _, _ => none

/-- The line of a mnemonic and its operands; mnemonics are lower case (rules R67, R68). -/
def lineOf (mnemonic : List Char) (operands : List Nat) : Except AsmRefusal AsmLine :=
  let two (f : Nat → Nat → AsmLine) : Except AsmRefusal AsmLine :=
    match operands with
    | [x, y] => .ok (f x y)
    | _ => .error .operandCount
  let one (f : Nat → AsmLine) : Except AsmRefusal AsmLine :=
    match operands with
    | [x] => .ok (f x)
    | _ => .error .operandCount
  let bare (l : AsmLine) : Except AsmRefusal AsmLine :=
    match operands with
    | [] => .ok l
    | _ => .error .operandCount
  if mnemonic = "apxp".toList then two .apxp
  else if mnemonic = "apxf".toList then two .apxf
  else if mnemonic = "lutrd".toList then one .lutrd
  else if mnemonic = "statrd".toList then bare .statrd
  else if mnemonic = "statclr".toList then one .statclr
  else if mnemonic = "idrd".toList then bare .idrd
  else if mnemonic = ".req".toList then
    match operands with
    | [op, b, a] => .ok (.req op b a)
    | _ => .error .operandCount
  else if mnemonic = "clrall".toList then bare .clrall
  else if mnemonic = "apx".toList then two .apx
  else if mnemonic = "lutrdall".toList then bare .lutrdall
  else .error .mnemonic

/-- A line of text: one command at most, `;` starts a comment (rule R67). A line without a command yields
none, and where a line is wrong in several ways, a number that cannot be read names the refusal before the mnemonic, and the
mnemonic before the operand count (DESIGN CHOICE, log entry 14). -/
def parseLine (text : String) : Except AsmRefusal (Option AsmLine) :=
  let body := trimBlanks (text.toList.takeWhile fun ch => ch != ';')
  if body = [] then .ok none
  else
    let mnemonic := body.takeWhile fun ch => !isBlank ch
    let rest := trimBlanks (body.dropWhile fun ch => !isBlank ch)
    match (if rest = [] then some [] else parseNumbers (splitCommas rest)) with
    | none => .error .number
    | some operands =>
      match lineOf mnemonic operands with
      | .ok l => .ok (some l)
      | .error e => .error e

/-- The request words of a line of text. -/
def assembleText (c : Cfg) (text : String) : Except AsmRefusal (List ReqWord) :=
  match parseLine text with
  | .error e => .error e
  | .ok none => .ok []
  | .ok (some l) => assemble c l

/-- The request words of the lines of a text, in order. Rule R67 says only that the assembler refuses an operand, not what
becomes of the other lines: that one refused line refuses the whole text, which then yields no word, and that the first
refused line names the refusal, are the model's choice (DESIGN CHOICE, log entry 23). -/
def assembleLines (c : Cfg) : List String → Except AsmRefusal (List ReqWord)
  | [] => .ok []
  | line :: lines =>
    match assembleText c line, assembleLines c lines with
    | .ok ws, .ok rest => .ok (ws ++ rest)
    | .error e, _ => .error e
    | _, .error e => .error e

/-- A hexadecimal digit, upper case. -/
def hexDigit (n : Nat) : Char := "0123456789ABCDEF".toList.getD n '?'

/-- The `count` lowest hexadecimal digits of a number, most significant first. -/
def hexDigits : Nat → Nat → List Char
  | 0, _ => []
  | count + 1, v => hexDigits count (v / 16) ++ [hexDigit (v % 16)]

/-- A request word as 17 hexadecimal digits grouped `o_bbbbbbbb_aaaaaaaa` (rule R60). -/
def listing (w : ReqWord) : List Char :=
  hexDigits 1 (reqOp w).toNat ++ '_' :: hexDigits 8 (reqB w).toNat ++ '_' :: hexDigits 8 (reqA w).toNat

/-- A response word as hexadecimal digits grouped `c_dddddddd` (rule R64, 95_test_vectors.md). -/
def responseListing (r : Response) : List Char := hexDigits 1 r.code.toNat ++ '_' :: hexDigits 8 r.data.toNat

end Sys2Proof.Machine
end

