-- ==== Sys2Proof/Machine/Elaborate.lean ====
section
/-! DEFINITION. Elaboration: which parameters make a block, and by what name the others are refused (rules R24, R164). -/

namespace Sys2Proof.Machine

/-- Why elaboration refuses its parameters. -/
inductive ElabRefusal where
  /-- The table fails `LUT_WF`; the first failing check of rule R24. Safe: no block has such a table (93 U11). -/
  | table (c : LutCheck)
  /-- `LAT` is not an integer >= 1 (rule R7). Safe. -/
  | latency
  /-- `QDEPTH` is not an integer >= 1 (rule R7). Safe. -/
  | depth
deriving DecidableEq, Repr

/-- Elaboration of a block (rules R24, R164): its parameters, or a refusal that names the first failing check. -/
def elaborate (cfg : Cfg) (lut : List Nat) (lat qdepth : Nat) : Except ElabRefusal Params :=
  if hw : lutWf cfg lut = true then
    if hl : 1 ≤ lat then
      if hq : 1 ≤ qdepth then
        .ok { cfg := cfg, lut := lut, lutOk := hw, lat := lat, latPos := hl, qdepth := qdepth, qdepthPos := hq }
      else .error .depth
    else .error .latency
  else .error (.table ((failingChecks cfg lut).headD .len))

end Sys2Proof.Machine
end

