-- ==== Sys2Proof/Machine/Library.lean ====
section
/-! DEFINITION. The host library's `exp` and `sin` as the generator uses them (rule R128): free values, held to a few units in
the last place of the function on the range that the curve of rule R123 calls them on. -/

namespace Sys2Proof

/-- Whether a value is a binary64 datum in the format's own form. -/
def F64.wellFormed : F64 → Bool
  | .nan => true
  | .inf _ => true
  | .fin _ m e =>
    decide (m < 2 ^ 53) && decide (F64.minExp ≤ e) && decide (e ≤ F64.maxExp) && (decide (2 ^ 52 ≤ m) || decide (e = F64.minExp))

/-- Whether two finite values differ by at most `ulps` units in the last place of the second. -/
def F64.withinUlps (ulps : Nat) : F64 → F64 → Bool
  | .fin s m e, .fin t k f =>
    let (n1, d1) := magnitude m e
    let (n2, d2) := magnitude k f
    let (n3, d3) := magnitude 1 f
    let diff : Int := signFactor s * ((n1 * d2 : Nat) : Int) - signFactor t * ((n2 * d1 : Nat) : Int)
    decide (diff.natAbs * d3 ≤ ulps * n3 * (d1 * d2))
  | _, _ => false

/-- The "few units in the last place" of rule R128, by which two libraries may differ (PRESUMED, log entry 21). -/
def libraryUlps : Nat := 4

/-- A free value held to a few units in the last place of `near`: where it strays further, `near` stands for it. -/
def F64.heldTo (near free : F64) : F64 := if free.wellFormed && free.withinUlps libraryUlps near then free else near

/-- `1 + x/k * (1 + x/(k+1) * ...)`, of `terms` factors, for `x = num/den`: a numerator and a denominator. -/
def expHorner (num : Int) (den : Nat) : Nat → Nat → Int × Nat
  | 0, _ => (1, 1)
  | terms + 1, k =>
    let (a, b) := expHorner num den terms (k + 1)
    (((k * den * b : Nat) : Int) + num * a, k * den * b)

/-- `1 - y/(2k(2k+1)) * (1 - y/((2k+2)(2k+3)) * ...)`, of `terms` factors, for `y = num/den`: a numerator and a denominator. -/
def sinHorner (num den : Nat) : Nat → Nat → Int × Nat
  | 0, _ => (1, 1)
  | terms + 1, k =>
    let (a, b) := sinHorner num den terms (k + 1)
    (((2 * k * (2 * k + 1) * den * b : Nat) : Int) - num * a, 2 * k * (2 * k + 1) * den * b)

/-- The binary64 number nearest to a signed ratio. -/
def F64.ofSignedRatio (num : Int) (den : Nat) : F64 := F64.ofRatio (decide (num < 0)) num.natAbs den

/-- `exp` of a finite value by its power series to the 30th power, rounded once. -/
def F64.seriesExp : F64 → F64
  | .fin s m e =>
    let (n, d) := magnitude m e
    let (a, b) := expHorner (signFactor s * n) d 30 1
    F64.ofSignedRatio a b
  | _ => .nan

/-- `sin` of a finite value by its power series to the 29th power, rounded once. -/
def F64.seriesSin : F64 → F64
  | .fin s m e =>
    let (n, d) := magnitude m e
    let (a, b) := sinHorner (n * n) (d * d) 14 1
    F64.ofSignedRatio (signFactor s * n * a) (d * b)
  | _ => .nan

/-- Whether `|x| <= 2`: the range on which the library is held to the function, and on which the curve of R123 calls it. -/
def F64.inLibraryRange : F64 → Bool
  | .fin _ m e => let (n, d) := magnitude m e; decide (n ≤ 2 * d)
  | _ => false

/-- The host library's exponential: on `|x| <= 2` within a few units in the last place, elsewhere open (rule R128). -/
def libraryExp (x : F64) : F64 :=
  if x.inLibraryRange then F64.heldTo x.seriesExp (Config.libExp x) else Config.libExp x

/-- The host library's sine: on `|x| <= 2` within a few units in the last place, elsewhere open (rule R128). -/
def librarySin (x : F64) : F64 :=
  if x.inLibraryRange then F64.heldTo x.seriesSin (Config.libSin x) else Config.libSin x

end Sys2Proof
end

