-- ==== Sys2Proof/Machine/Generator.lean ====
section
/-! DEFINITION. The offline lookup-table generator, a reference procedure that runs before elaboration (rules R120 to R130). It
is no command of the block. -/

namespace Sys2Proof.Machine

/-- A reference curve `f(t, period)` over binary64 (rules R121, R124). -/
abbrev Curve := F64 → F64 → F64

/-- Why the generator refuses, emitting no table (rules R122, R125). Every one is safe: no table results. -/
inductive GenRefusal where
  /-- `period <= 0` (rule R122 (a)). -/
  | period
  /-- The sample count is no power of two (rule R122 (b)). -/
  | sampleCount
  /-- The sample count and the width are no configuration (rule R122 (c)). -/
  | pairing
  /-- A sample is NaN or infinite, so no integer results (rule R125). -/
  | nonFinite
deriving DecidableEq, Repr

/-- Whether a sample count is a power of two (rule R122 (b)). -/
def isPowerOfTwo (n : Nat) : Bool := decide (n ≠ 0) && decide (n = 2 ^ Nat.log2 n)

/-- Fixed-width wrap: the residue mod `2^W` of the truncated sample (rule R125, decision D27). -/
def wrapSample (w : Nat) (v : Int) : Nat := (v % (2 ^ w : Nat)).toNat

/-- The sample offset `k * period / N`, a real number taken to the nearest binary64 (rule R124, decision D28). -/
def sampleOffset (period : Int) (n k : Nat) : F64 := F64.ofRatio (decide (period < 0)) (k * period.natAbs) n

/-- The integer samples at `k = 0 .. N-1` (rules R124, R125), if each of them is finite. -/
def samplesOf (f : Curve) (period : Int) (n w : Nat) : List Nat → Option (List Nat)
  | [] => some []
  | k :: ks =>
    match (f (sampleOffset period n k) (F64.ofInt period)).trunc, samplesOf f period n w ks with
    | some v, some rest => some (wrapSample w v :: rest)
    | _, _ => none

/-- `generate(referenceCurve, period, sampleCount)` for W-bit words: `lut[0..N]` in ascending order, the sentinel MAX
appended and not sampled (rules R121, R125, R127), or a refusal by name (rule R122). -/
def generate (f : Curve) (period : Int) (n w : Nat) : Except GenRefusal (List Nat) :=
  if period ≤ 0 then .error .period
  else if isPowerOfTwo n = false then .error .sampleCount
  else
    match Cfg.ofPair n w with
    | none => .error .pairing
    | some c =>
      match samplesOf f period n w (List.range n) with
      | none => .error .nonFinite
      | some body => .ok (body ++ [c.satMax])

/-- The generator's report beside the table: the checks of `LUT_WF` that the table fails (rule R126). The table is emitted
all the same; elaboration refuses it. -/
def generatorReport (c : Cfg) (lut : List Nat) : List LutCheck := failingChecks c lut

/-- A number in decimal. -/
def decimal (v : Nat) : List Char := Nat.toDigits 10 v

/-- The constant array declaration that the generator emits (rule R127): what of it is normative (decision D39). -/
structure ArrayDecl where
  /-- W: each element is an unsigned integer of this many bits. -/
  elementBits : Nat
  /-- 9 or 17. -/
  length : Nat
  /-- The elements in decimal, in ascending index order. -/
  elements : List (List Char)
deriving DecidableEq, Repr

/-- The declaration of a table: its N+1 integers in decimal, in ascending index order. No period appears in it. -/
def arrayDecl (c : Cfg) (lut : List Nat) : ArrayDecl where
  elementBits := c.width
  length := c.samples + 1
  elements := lut.map decimal

/-- The elements with their separators, from an index on. -/
def joinElements : Nat → List (List Char) → List Char
  | _, [] => []
  | _, [e] => e
  | i, e :: es => e ++ Config.arraySeparator i ++ joinElements (i + 1) es

/-- The declaration as text. Its spelling around the elements is any value (rule R127, 93 U20). -/
def ArrayDecl.text (a : ArrayDecl) : List Char :=
  Config.arrayOpening a.elementBits a.length ++ joinElements 0 a.elements ++ Config.arrayClosing a.elementBits a.length

/-- The tool's run: the declaration it emits and, beside it, the checks of `LUT_WF` that the table fails (rules R121, R126,
R127), or the refusal, which emits nothing (rule R122). -/
def runGenerator (f : Curve) (period : Int) (n w : Nat) : Except GenRefusal (ArrayDecl × List LutCheck) :=
  match generate f period n w, Cfg.ofPair n w with
  | .ok lut, some c => .ok (arrayDecl c lut, generatorReport c lut)
  | .ok _, none => .error .pairing
  | .error e, _ => .error e

/-- pi in binary64. -/
def piF64 : F64 := F64.ofRatio false 884279719003555 (2 ^ 48)

/-- The jled 8-bit curve of rule R123, for a library's `exp` and `sin`:
`(exp(sin((t - period/2) * pi / period)) - 0.36787944) * 108` (PRESUMED, log entry 12). -/
def curve8 (exp sin : F64 → F64) : Curve := fun t period =>
  let arg := ((t.sub (period.div (F64.ofInt 2))).mul piF64).div period
  ((exp (sin arg)).sub (F64.ofRatio false 36787944 100000000)).mul (F64.ofInt 108)

/-- The reference curve of a configuration (`REF_CURVE` of rule R7): rule R123's formula for W = 8, open for W = 16
(rule R129). -/
def refCurve : Cfg → Curve
  | .pli8 => curve8 libraryExp librarySin
  | .pli16 => Config.refCurve16

end Sys2Proof.Machine
end

