-- ==== Sys2Proof/Safety.lean ====
section
/-! DEFINITION. What a safe run is, in the terms claims use: the invariant of the block's state, the host's duties, the
premise that no error was raised, and what transfers over a run. -/

namespace Sys2Proof.Machine

/-- The invariant of the block between two edges, once reset has been applied. -/
structure Inv (s : State) : Prop where
  /-- `Q` holds at most `QDEPTH` entries (rule R29). -/
  depth : s.queue.length ≤ s.params.qdepth
  /-- `req_ready = 1` only while `|Q| < QDEPTH` (rule R32). -/
  ready : s.reqReady = true → s.queue.length < s.params.qdepth
  /-- `rsp_valid` is 1 exactly when the oldest entry has been in `Q` for at least `LAT` cycles (rule R32). -/
  valid : s.rspValid = (presented s.params.lat s.queue).isSome
  /-- While a response is presented, the output registers hold it (rules R31, R32). -/
  held : ∀ r, presented s.params.lat s.queue = some r → s.rspData = r.data ∧ s.rspCode = r.code
  /-- An older entry has been in `Q` for longer: at most one command is accepted at an edge (rule R169). -/
  ages : s.queue.Pairwise fun e f => f.age < e.age
  /-- Every entry has been in `Q` for at least one cycle. -/
  aged : ∀ e ∈ s.queue, 1 ≤ e.age
  /-- STATUS bits 31:5 are 0 (rule R26). -/
  reserved : s.status &&& statusBits = s.status

/-- The pins of the edge after the coming one. -/
def State.pinsAfter (s : State) : Pins := s.inputs.tail.headD Pins.idle

/-- The host's duty (a) of rule R167: a request that does not transfer stays on the pins (rule R32). A duty of the host, not
a check of the block (DEDUCED, log entry 11). -/
def HostHoldsRequest (s : State) : Prop :=
  s.pins.rstN = true → s.pins.reqValid = true → s.reqReady = false →
    s.pinsAfter.reqValid = true ∧ s.pinsAfter.request = s.pins.request

/-- The host's duty (c) of rule R167: `rsp_data` and `rsp_code` are read only while `rsp_valid = 1`. What the host reads. -/
def hostReads (s : State) : Option (Word × BitVec 3) :=
  if s.rspValid then some (s.rspData, s.rspCode) else none

/-- The premise that 93_implementation_defined.md (U1, U2, U5 to U7) asks of a claim on brightness: the command raised no
error (DESIGN CHOICE, log entry 8). -/
def ErrorFree (r : Response) : Prop := r.err = none

/-- No edge of the next `k` applies reset (rule R162; 93 U19: a claim states "no reset during the run"). -/
def ResetFree (k : Nat) (s : State) : Prop := ∀ p ∈ s.inputs.take k, p.rstN = true

/-- What a response puts on the ports `rsp_data` and `rsp_code`. -/
def Response.ports (r : Response) : Word × BitVec 3 := (r.data, r.code)

/-- The response that transfers at the coming edge, as the ports show it (rule R32). -/
def deliveredAt (s : State) : Option (Word × BitVec 3) :=
  if s.responseTransfers then some (s.rspData, s.rspCode) else none

/-- The command whose request transfers at the coming edge (rules R32, R66). -/
def commandAt (s : State) : Option Instr :=
  if s.requestTransfers then some (decode s.pins.request) else none

/-- `k` edges, if none of them stops. -/
def runEdges : Nat → State → Option State
  | 0, s => some s
  | k + 1, s =>
    match step s with
    | .next t => runEdges k t
    | .fault _ => none
    | .refused _ => none

/-- The responses delivered over `k` edges, in order. -/
def deliveredIn : Nat → State → List (Word × BitVec 3)
  | 0, _ => []
  | k + 1, s =>
    (deliveredAt s).toList ++
      match step s with
      | .next t => deliveredIn k t
      | .fault _ => []
      | .refused _ => []

/-- The commands accepted over `k` edges, in order: the program order of the block (rule R21). -/
def commandsIn : Nat → State → List Instr
  | 0, _ => []
  | k + 1, s =>
    (commandAt s).toList ++
      match step s with
      | .next t => commandsIn k t
      | .fault _ => []
      | .refused _ => []

/-- Commands executed one at a time, each an atomic step, with no clock, no latency and no backpressure (rule R45). -/
def execAll : List Instr → State → Option State
  | [], s => some s
  | i :: is, s =>
    match exec i s with
    | .next t => execAll is t
    | .fault _ => none
    | .refused _ => none

/-- A host library whose `exp` and `sin` are within `ulps` units in the last place of the functions on `|x| <= 2`, the range
on which the curve of R123 calls them: the premise of rule R128 on a library. A unit in the last place of y is at most the
greater of `2^-52 * |y|` and `2^-1074`. -/
def LibraryWithin (ulps : Nat) (exp sin : F64 → F64) : Prop :=
  ∀ (x : F64) (v : ℚ), x.value = some v → |v| ≤ 2 →
    (∃ y : ℚ, (exp x).value = some y ∧
      |(y : ℝ) - Real.exp v| ≤ ulps * max ((2 : ℝ) ^ (-52 : ℤ) * |Real.exp v|) ((2 : ℝ) ^ (-1074 : ℤ))) ∧
    ∃ y : ℚ, (sin x).value = some y ∧
      |(y : ℝ) - Real.sin v| ≤ ulps * max ((2 : ℝ) ^ (-52 : ℤ) * |Real.sin v|) ((2 : ℝ) ^ (-1074 : ℤ))

end Sys2Proof.Machine
end

