-- ==== Sys2Proof/Certificates/Slice0/Obligations.lean ====
section
/-! DEFINITION. The statements for the provers. -/

open Sys2Proof Sys2Proof.Machine

namespace Sys2Proof.Machine

/-- The spec's own `PLI16` test table (decision D33), elaborated with `LAT = 1` and `QDEPTH = 1`. It defines no behaviour. -/
def Params.test16 : Params where
  cfg := .pli16
  lut := [0, 4096, 8192, 12288, 16384, 20480, 24576, 28672, 32768, 36864, 40960, 45056, 49152, 53248, 57344, 61440, 65535]
  lutOk := by decide
  lat := 1
  latPos := by decide
  qdepth := 1
  qdepthPos := by decide

/-- STATUS bit `j` as software reads it. -/
def statusBit (s : State) (j : Nat) : Bool := (readStatus s).getLsbD j

/-- What `Q` holds, as the ports will show it. -/
def queuedPorts (s : State) : List (Word × BitVec 3) := s.queue.map fun e => e.rsp.ports

end Sys2Proof.Machine

/-! ### Reset, boot and the step -/

/-- Rules R160 and R161: at an edge with `rst_n = 0` the reset values apply, from any state, nothing transfers, and the LUT
and ID are untouched. -/
def Obligations.ResetEdgeAppliesResetValues : Prop :=
  ∀ s : State, s.pins.rstN = false →
    ∃ t, step s = .next t ∧ t.status = 0 ∧ t.queue = [] ∧ t.reqReady = false ∧ t.rspValid = false ∧
      t.params = s.params ∧ readId t.params = readId s.params ∧ deliveredAt s = none ∧ commandAt s = none

/-- The state after reset of any block holds the values of rule R35's table, and `State.reset` is one such state (its
elaboration, and its `rsp_data` and `rsp_code`, are the model's choice: DESIGN CHOICE, log entries 2 and 6; nothing here names them). -/
def Obligations.ResetStateHoldsResetValues : Prop :=
  (∀ p : Params, (State.resetOf p).status = 0 ∧ (State.resetOf p).queue = [] ∧ (State.resetOf p).reqReady = false ∧
    (State.resetOf p).rspValid = false ∧ (State.resetOf p).params = p) ∧
  ∃ p, State.reset = State.resetOf p

/-- Boot (70_reset_and_hazards.md section 2): from any state, applied reset or not, one edge with `rst_n = 0` and one with
`rst_n = 1` leave `req_ready = 1` and no response presented. -/
def Obligations.BootReachesRequestReady : Prop :=
  ∀ (s : State) (p q : Pins) (rest : List Pins), s.inputs = p :: q :: rest → p.rstN = false → q.rstN = true →
    ∃ t, runEdges 2 s = some t ∧ t.reqReady = true ∧ t.rspValid = false ∧ t.status = 0 ∧ t.queue = [] ∧
      t.params = s.params ∧ t.inputs = rest

/-- Rule R163, as the model reads it (DEDUCED, log entry 7): before reset is first applied the only step is a reset edge. -/
def Obligations.NoStepBeforeReset : Prop :=
  ∀ s : State, s.resetDone = false →
    (s.pins.rstN = true → step s = .fault .beforeReset) ∧
    (s.pins.rstN = false → ∃ t, step s = .next t ∧ t.resetDone = true)

/-- A step runs the decoded command: when a request transfers, the step is `exec` of the decoded request word at the state
whose transferring response has left `Q`, followed by the end of the cycle; when none transfers, only the latter two. That
the command executes at its request's edge is the model's reading (DEDUCED, log entry 3), and so is it that a response which
transfers at the same edge leaves `Q` first (DEDUCED, log entry 18). -/
def Obligations.StepRunsTheDecodedCommand : Prop :=
  ∀ s : State, s.resetDone = true → s.pins.rstN = true →
    (s.requestTransfers = true →
      ∃ t, exec (decode s.pins.request) (takeResponse s) = .next t ∧ step s = .next (finishEdge t)) ∧
    (s.requestTransfers = false → step s = .next (finishEdge (takeResponse s)))

/-- The model's own convention (DESIGN CHOICE, log entry 10): after `withFetchWord` the very next step runs exactly the command of that
word, in every state and of every opcode. -/
def Obligations.FetchWordRunsAtTheNextStep : Prop :=
  ∀ (s : State) (nbits w : Nat), 68 ≤ nbits → w < 2 ^ 68 →
    commandAt (s.withFetchWord nbits w) = some (decode (BitVec.ofNat 68 w)) ∧
    decodeTableWord nbits w = some (decode (BitVec.ofNat 68 w)) ∧
    ∃ t, exec (decode (BitVec.ofNat 68 w)) (takeResponse (s.withFetchWord nbits w)) = .next t ∧
      step (s.withFetchWord nbits w) = .next (finishEdge t)

/-- Rule R144: no trap is taken; once reset has been applied every step answers a next state, and reset stays applied. -/
def Obligations.EveryStepAnswersAfterReset : Prop :=
  ∀ (k : Nat) (s : State), s.resetDone = true → ∃ t, runEdges k s = some t ∧ t.resetDone = true ∧ t.params = s.params

/-- Rule R155: with no request and `Q` empty the block is idle and keeps STATUS and everything else it holds. -/
def Obligations.IdleBlockKeepsItsState : Prop :=
  ∀ s : State, s.resetDone = true → s.pins.rstN = true → s.pins.reqValid = false → s.queue = [] →
    ∃ t, step s = .next t ∧ t.status = s.status ∧ t.queue = [] ∧ t.params = s.params ∧ t.resetDone = true ∧
      t.rspValid = false ∧ t.reqReady = true

/-! ### Encoding -/

/-- Words written out from rule R62's map decode to the commands they stand for. -/
def Obligations.WrittenOutWordsDecode : Prop :=
  decode 0x1_00000100_00000080 = .apxp 128 256 ∧ decode 0x2_00000064_00000025 = .apxf 37 100 ∧
  decode 0x3_FFFFFFFF_00000005 = .lutrd 5 0xFFFFFFFF ∧ decode 0x4_00000000_00000000 = .statrd 0 0 ∧
  decode 0x5_00000000_00000008 = .statclr 8 0 ∧ decode 0x6_12345678_9ABCDEF0 = .idrd 0x9ABCDEF0 0x12345678 ∧
  decode 0x0_00000000_00000000 = .reserved0 0 0 ∧ decode 0x8_00000100_00000080 = .reserved8 0x80 0x100 ∧
  decode 0xF_FFFFFFFF_FFFFFFFF = .reservedF 0xFFFFFFFF 0xFFFFFFFF

/-- Decoding the encoding of a command gives it back, and encoding the command of any request word gives that word back:
every bit of the 68 is kept, each word has one meaning. -/
def Obligations.DecodeAndEncodeAgree : Prop :=
  (∀ i : Instr, i.WellFormed = true → decode (encode i) = i) ∧ ∀ w : ReqWord, encode (decode w) = w

/-- Rules R62 and R65: `op` alone selects the command, over all sixteen opcodes. -/
def Obligations.OpcodeAloneSelectsTheCommand : Prop :=
  ∀ b a : Word,
    decode (packReq 0x0 b a) = .reserved0 a b ∧ decode (packReq 0x1 b a) = .apxp a b ∧
    decode (packReq 0x2 b a) = .apxf a b ∧ decode (packReq 0x3 b a) = .lutrd a b ∧
    decode (packReq 0x4 b a) = .statrd a b ∧ decode (packReq 0x5 b a) = .statclr a b ∧
    decode (packReq 0x6 b a) = .idrd a b ∧ decode (packReq 0x7 b a) = .reserved7 a b ∧
    decode (packReq 0x8 b a) = .reserved8 a b ∧ decode (packReq 0x9 b a) = .reserved9 a b ∧
    decode (packReq 0xA b a) = .reservedA a b ∧ decode (packReq 0xB b a) = .reservedB a b ∧
    decode (packReq 0xC b a) = .reservedC a b ∧ decode (packReq 0xD b a) = .reservedD a b ∧
    decode (packReq 0xE b a) = .reservedE a b ∧ decode (packReq 0xF b a) = .reservedF a b

/-- Rules R60 and R64: where the fields of the packed request and response words lie. -/
def Obligations.PackedWordFieldPlaces : Prop :=
  (∀ (op : Opcode) (b a : Word), (packReq op b a).toNat = op.toNat * 2 ^ 64 + b.toNat * 2 ^ 32 + a.toNat) ∧
  ∀ r : Response, r.pack.toNat = r.code.toNat * 2 ^ 32 + r.data.toNat

/-- Rule R63: fields marked "ignored" have no effect, and no combination of an opcode with operand values is illegal. -/
def Obligations.IgnoredFieldsHaveNoEffect : Prop :=
  ∀ (s : State) (a b a' b' : Word),
    exec (.lutrd a b) s = exec (.lutrd a b') s ∧ exec (.statclr a b) s = exec (.statclr a b') s ∧
    exec (.statrd a b) s = exec (.statrd a' b') s ∧ exec (.idrd a b) s = exec (.idrd a' b') s ∧
    ∀ i : Instr, i.WellFormed = true ∧ ∃ t, exec i s = .next t

/-! ### The interpolation commands -/

/-- Rule R84: `APXP` completes with exactly the response and the STATUS bit of its pseudocode, and changes nothing else. -/
def Obligations.ApxpFollowsItsRule : Prop :=
  ∀ (s : State) (a b : Word),
    let n := s.params.cfg.samples
    let t := a.toNat
    let period := b.toNat
    let i := t * n / period
    let x0 := i * period / n
    let dx := period / n
    let y0 := memRead s.params i
    let y1 := memRead s.params (i + 1)
    let v := y0 + (t - x0) * (y1 - y0) / dx
    let max := 2 ^ s.params.cfg.width - 1
    exec (.apxp a b) s = .next
      (if period ≤ t + 1 then
        if period = 0 then
          { s with
            queue := s.queue ++ [{ rsp := { data := BitVec.ofNat 32 max, err := some .pzero }, age := 0 }]
            status := readStatus s ||| 0x4 }
        else { s with queue := s.queue ++ [{ rsp := { data := BitVec.ofNat 32 max, err := none }, age := 0 }] }
      else if dx = 0 then
        { s with
          queue := s.queue ++ [{ rsp := { data := 0, err := some .divz }, age := 0 }]
          status := readStatus s ||| 0x8 }
      else if max < v then
        { s with
          queue := s.queue ++
            [{ rsp := { data := BitVec.ofNat 32 (v % 2 ^ s.params.cfg.width), err := some .ovr }, age := 0 }]
          status := readStatus s ||| 0x10 }
      else { s with queue := s.queue ++ [{ rsp := { data := BitVec.ofNat 32 v, err := none }, age := 0 }] })

/-- Rule R85: `APXF` completes with exactly the response and the STATUS bit of its pseudocode, and changes nothing else. -/
def Obligations.ApxfFollowsItsRule : Prop :=
  ∀ (s : State) (a b : Word),
    let sh := 8 - Nat.log2 s.params.cfg.samples
    let t := a.toNat
    let period := b.toNat
    let tp := t * 2 ^ 8 / period
    let i := tp / 2 ^ sh
    let x0 := i * 2 ^ sh
    let y0 := memRead s.params i
    let y1 := memRead s.params (i + 1)
    let v := y0 + (tp - x0) * (y1 - y0) / 2 ^ sh
    let max := 2 ^ s.params.cfg.width - 1
    exec (.apxf a b) s = .next
      (if period ≤ t + 1 then
        if period = 0 then
          { s with
            queue := s.queue ++ [{ rsp := { data := BitVec.ofNat 32 max, err := some .pzero }, age := 0 }]
            status := readStatus s ||| 0x4 }
        else { s with queue := s.queue ++ [{ rsp := { data := BitVec.ofNat 32 max, err := none }, age := 0 }] }
      else { s with queue := s.queue ++ [{ rsp := { data := BitVec.ofNat 32 v, err := none }, age := 0 }] })

/-- Rules R81 and R143: at and past the end of the period both commands answer MAX with code OK and raise nothing. -/
def Obligations.TimesPastTheEndGiveMax : Prop :=
  ∀ (s : State) (t period : Word), 1 ≤ period.toNat → period.toNat ≤ t.toNat + 1 →
    let done := { s with
      queue := s.queue ++ [{ rsp := { data := BitVec.ofNat 32 s.params.cfg.satMax, err := none }, age := 0 }] }
    exec (.apxp t period) s = .next done ∧ exec (.apxf t period) s = .next done

/-- Rule R82: with `period = 0` both commands answer MAX and raise `PZERO`, for every t. -/
def Obligations.ZeroPeriodRaisesPzero : Prop :=
  ∀ (s : State) (t : Word),
    let done := { s with
      queue := s.queue ++ [{ rsp := { data := BitVec.ofNat 32 s.params.cfg.satMax, err := some .pzero }, age := 0 }]
      status := readStatus s ||| 0x4 }
    exec (.apxp t 0) s = .next done ∧ exec (.apxf t 0) s = .next done

/-- Rule R80: the edge rule compares the exact sum, and under it no LUT word matters to the response. -/
def Obligations.EdgeRuleReadsNoTableWord : Prop :=
  ∀ (p q : Params) (t period : Word), p.cfg = q.cfg → period.toNat ≤ t.toNat + 1 →
    apxpResult p t.toNat period.toNat = apxpResult q t.toNat period.toNat ∧
    apxfResult p t.toNat period.toNat = apxfResult q t.toNat period.toNat ∧
    (apxpResult p t.toNat period.toNat).data = BitVec.ofNat 32 p.cfg.satMax ∧
    (apxfResult p t.toNat period.toNat).data = BitVec.ofNat 32 p.cfg.satMax

/-- Rule R86: when the edge rule does not fire, both segment indexes lie in `[0, N-1]`, and `tp <= 255`. -/
def Obligations.SegmentIndexInRange : Prop :=
  ∀ (c : Cfg) (t period : Nat), t + 1 < period →
    t ≤ period - 2 ∧ apxpIndex c t period ≤ c.samples - 1 ∧ apxpIndex c t period + 1 ≤ c.samples ∧
    apxfScaled t period ≤ 255 ∧ apxfIndex c t period ≤ c.samples - 1 ∧ apxfIndex c t period + 1 ≤ c.samples

/-- Rule R87: `APXF` never leaves its segment. -/
def Obligations.ApxfStaysInItsSegment : Prop :=
  ∀ (p : Params) (t period : Nat), t + 1 < period →
    let i := apxfIndex p.cfg t period
    let u := apxfScaled t period - apxfStart p.cfg t period
    let d := memRead p (i + 1) - memRead p i
    memRead p i ≤ memRead p (i + 1) ∧ u = apxfScaled t period % 2 ^ p.cfg.shift ∧ u ≤ 2 ^ p.cfg.shift - 1 ∧
    (u * d) >>> p.cfg.shift ≤ d ∧ ((u * d) >>> p.cfg.shift = d ↔ d = 0) ∧
    memRead p i ≤ apxfExact p t period ∧ apxfExact p t period ≤ memRead p (i + 1) ∧ memRead p (i + 1) ≤ p.cfg.satMax

/-- Rule R88: the bounds of `APXP`, and the spec's examples of an overshoot. -/
def Obligations.ApxpBounds : Prop :=
  (∀ (p : Params) (t period : Nat), t + 1 < period → 0 < apxpWidth p.cfg period →
    let i := apxpIndex p.cfg t period
    let x0 := apxpStart p.cfg t period
    let dx := apxpWidth p.cfg period
    let d := memRead p (i + 1) - memRead p i
    x0 ≤ t ∧ (t - x0) * p.cfg.samples < period + p.cfg.samples ∧ t - x0 ≤ dx + 1 ∧
    apxpExact p t period ≤ memRead p (i + 1) + d / dx ∧ apxpExact p t period ≤ 2 * p.cfg.satMax ∧
    (p.cfg.samples ∣ period → t - x0 ≤ dx - 1 ∧ memRead p i ≤ apxpExact p t period ∧
      (d = 0 → apxpExact p t period = memRead p i) ∧ (d ≠ 0 → apxpExact p t period < memRead p (i + 1)))) ∧
  apxpExact Params.sample 11 13 = 285 ∧ apxpResult Params.sample 11 13 = { data := 29, err := some .ovr } ∧
  apxpExact Params.sample 18 21 = 258 ∧ apxpResult Params.sample 18 21 = { data := 2, err := some .ovr } ∧
  apxpExact Params.test16 23 25 = 65536 ∧ apxpResult Params.test16 23 25 = { data := 0, err := some .ovr }

/-- Rule R89: `APXP` is not monotonic in t: the later time gives the smaller value, with no error. -/
def Obligations.ApxpIsNotMonotonic : Prop :=
  apxpResult Params.sample 8 11 = { data := 240, err := none } ∧
  apxpResult Params.sample 9 11 = { data := 232, err := none } ∧
  apxpResult Params.sample 11 13 = { data := 29, err := some .ovr } ∧
  apxpResult Params.sample 12 13 = { data := 255, err := none }

/-- Rule R83: no intermediate of either command exceeds the width the rule gives it. -/
def Obligations.IntermediatesFitTheirWidths : Prop :=
  ∀ (p : Params) (a b : Word), a.toNat + 1 < b.toNat →
    let bits (small large : Nat) : Nat := if p.cfg = .pli8 then small else large
    let t := a.toNat
    let period := b.toNat
    let i := apxpIndex p.cfg t period
    let dx := apxpWidth p.cfg period
    let r := t - apxpStart p.cfg t period
    let d := memRead p (i + 1) - memRead p i
    let u := apxfScaled t period - apxfStart p.cfg t period
    let e := memRead p (apxfIndex p.cfg t period + 1) - memRead p (apxfIndex p.cfg t period)
    t + 1 < 2 ^ 33 ∧ t * p.cfg.samples < 2 ^ bits 35 36 ∧ i * period < 2 ^ bits 35 36 ∧ dx < 2 ^ bits 29 28 ∧
    r ≤ dx + 1 ∧ r < 2 ^ bits 30 29 ∧ r * d ≤ (dx + 1) * p.cfg.satMax ∧ r * d < 2 ^ bits 37 44 ∧
    apxpExact p t period ≤ 2 * p.cfg.satMax ∧ apxpExact p t period < 2 ^ bits 9 17 ∧
    t <<< 8 < 2 ^ 40 ∧ apxfScaled t period < 2 ^ 8 ∧ u < 2 ^ bits 5 4 ∧ u * e < 2 ^ bits 13 20 ∧
    apxfExact p t period < 2 ^ bits 8 16

/-- Rule R90: wherever the edge rule does not fire, the two commands select the same segment. -/
def Obligations.BothVariantsSelectTheSameSegment : Prop :=
  ∀ (c : Cfg) (t period : Nat), t + 1 < period → apxfIndex c t period = apxpIndex c t period

/-- Rule R91: for `period` 0, 1 or `N * 2^j` with `j <= S`, the two commands do exactly the same, whatever the table, the
time and the state. -/
def Obligations.VariantsAgreeOnPowerOfTwoPeriods : Prop :=
  ∀ (s : State) (t period : Word),
    (period.toNat = 0 ∨ period.toNat = 1 ∨ ∃ j, j ≤ s.params.cfg.shift ∧ period.toNat = s.params.cfg.samples * 2 ^ j) →
    ∃ r u, r.err ≠ some .ovr ∧ u = completeCommand r s ∧
      exec (.apxp t period) s = .next u ∧ exec (.apxf t period) s = .next u

/-- Rule R93: for a fixed `period >= 1`, what `APXF` answers does not fall as t rises, over all 32-bit t. -/
def Obligations.ApxfIsMonotonic : Prop :=
  ∀ (p : Params) (t1 t2 period : Word), 1 ≤ period.toNat → t1.toNat ≤ t2.toNat →
    (apxfResult p t1.toNat period.toNat).data.toNat ≤ (apxfResult p t2.toNat period.toNat).data.toNat

/-- Rule R94: the boundary properties, as they hold in the block. The anchor (c) is for a segment start `t = x0` at which
neither the edge rule nor `DIVZ` comes first: `t + 1 < period` and `N <= period`. -/
def Obligations.BoundaryAndLeadingAnchor : Prop :=
  ∀ (p : Params) (period : Word),
    let max := BitVec.ofNat 32 p.cfg.satMax
    (1 ≤ period.toNat →
      apxpResult p (period.toNat - 1) period.toNat = { data := max, err := none } ∧
      apxfResult p (period.toNat - 1) period.toNat = { data := max, err := none }) ∧
    (2 ≤ period.toNat → apxfResult p 0 period.toNat = { data := 0, err := none }) ∧
    (p.cfg.samples ≤ period.toNat → apxpResult p 0 period.toNat = { data := 0, err := none }) ∧
    (period.toNat = 1 → apxpResult p 0 1 = { data := max, err := none } ∧ apxfResult p 0 1 = { data := max, err := none }) ∧
    (2 ≤ period.toNat → period.toNat ≤ p.cfg.samples - 1 →
      apxpResult p 0 period.toNat = { data := 0, err := some .divz }) ∧
    ∀ t : Word, t.toNat + 1 < period.toNat → p.cfg.samples ≤ period.toNat →
      t.toNat = apxpStart p.cfg t.toNat period.toNat →
      apxpResult p t.toNat period.toNat =
        { data := BitVec.ofNat 32 (memRead p (apxpIndex p.cfg t.toNat period.toNat)), err := none }

/-- Under the premise of 93_implementation_defined.md (U1, U2, U5) that no error was raised, the brightness on `rsp_data` is
the exact value of the source's formula, unwrapped, or MAX by the edge rule, and never above MAX (rules R84, R85). -/
def Obligations.ErrorFreeBrightnessIsExact : Prop :=
  ∀ (p : Params) (t period : Nat),
    (ErrorFree (apxpResult p t period) →
      1 ≤ period ∧ (apxpResult p t period).data.toNat ≤ p.cfg.satMax ∧
      (apxpResult p t period).data.toNat = if period ≤ t + 1 then p.cfg.satMax else apxpExact p t period) ∧
    (ErrorFree (apxfResult p t period) →
      1 ≤ period ∧ (apxfResult p t period).data.toNat ≤ p.cfg.satMax ∧
      (apxfResult p t period).data.toNat = if period ≤ t + 1 then p.cfg.satMax else apxfExact p t period)

/-! ### Table and register access -/

/-- Rule R100: `LUTRD` answers the word of a valid index, or data 0 and `IDX`, and changes nothing else. -/
def Obligations.LutrdFollowsItsRule : Prop :=
  ∀ (s : State) (index b : Word),
    exec (.lutrd index b) s = .next
      (if s.params.cfg.samples < index.toNat then
        { s with
          queue := s.queue ++ [{ rsp := { data := 0, err := some .idx }, age := 0 }]
          status := readStatus s ||| 0x2 }
      else
        { s with
          queue := s.queue ++ [{ rsp := { data := BitVec.ofNat 32 (memRead s.params index.toNat), err := none }, age := 0 }] })

/-- Rule R101: `LUTRD` over indexes 0 to N returns the whole `LUT` parameter in order. -/
def Obligations.LutrdReadsBackTheTable : Prop :=
  ∀ (s : State) (b : Word), ∃ rs : List Response,
    rs.map (fun r => r.data.toNat) = s.params.lut ∧ (∀ r ∈ rs, r.err = none) ∧
    ∃ t, execAll ((List.range (s.params.cfg.samples + 1)).map fun i => .lutrd (BitVec.ofNat 32 i) b) s = some t ∧
      t.queue = s.queue ++ rs.map (fun r => { rsp := r, age := 0 }) ∧ t.status = s.status

/-- Rules R102 and R103: `STATRD` answers STATUS, bits 31:5 reading 0, and never changes it; two of them with no command
between return the same data. -/
def Obligations.StatrdFollowsItsRule : Prop :=
  ∀ (s : State) (a b a' b' : Word),
    exec (.statrd a b) s = .next
      { s with queue := s.queue ++ [{ rsp := { data := s.status &&& 0x1F, err := none }, age := 0 }] } ∧
    execAll [.statrd a b, .statrd a' b'] s = some
      { s with
        queue := s.queue ++ [{ rsp := { data := s.status &&& 0x1F, err := none }, age := 0 },
          { rsp := { data := s.status &&& 0x1F, err := none }, age := 0 }] }

/-- Rule R104: `STATCLR` answers STATUS before the clear and clears exactly the bits of `a[4:0]`, in one atomic step. -/
def Obligations.StatclrFollowsItsRule : Prop :=
  ∀ (s : State) (a b : Word), ∃ new : Word,
    exec (.statclr a b) s = .next
      { s with
        queue := s.queue ++ [{ rsp := { data := readStatus s, err := none }, age := 0 }]
        status := new } ∧
    ∀ j, new.getLsbD j = (decide (j < 5) && s.status.getLsbD j && !a.getLsbD j)

/-- Rules R28 and R105: `IDRD` answers the identification constant, and changes nothing. -/
def Obligations.IdrdFollowsItsRule : Prop :=
  ∀ (s : State) (a b : Word),
    exec (.idrd a b) s = .next
      { s with
        queue := s.queue ++
          [{ rsp := { data := if s.params.cfg = .pli8 then 0x01050808 else 0x01041010, err := none }, age := 0 }] }

/-- Rules R65 and R106: every reserved opcode completes with data 0 and `ILL`, sets STATUS bit `ILL` and changes nothing
else. -/
def Obligations.ReservedOpcodesRaiseIll : Prop :=
  ∀ (s : State) (a b : Word),
    ∀ i ∈ [Instr.reserved0 a b, .reserved7 a b, .reserved8 a b, .reserved9 a b, .reservedA a b, .reservedB a b,
      .reservedC a b, .reservedD a b, .reservedE a b, .reservedF a b],
    exec i s = .next
      { s with
        queue := s.queue ++ [{ rsp := { data := 0, err := some .ill }, age := 0 }]
        status := readStatus s ||| 0x1 }

/-! ### Frames, errors and STATUS -/

/-- The frame of every command: one response is appended to `Q`; beside it only STATUS may change. No LUT word, no
constant, no output register, no entry of `Q` and no input changes. -/
def Obligations.CommandFrame : Prop :=
  ∀ (i : Instr) (s t : State), exec i s = .next t →
    (∃ r, t.queue = s.queue ++ [{ rsp := r, age := 0 }]) ∧ t.params = s.params ∧
    (∀ j, memRead t.params j = memRead s.params j) ∧ readId t.params = readId s.params ∧
    t.reqReady = s.reqReady ∧ t.rspValid = s.rspValid ∧ t.rspData = s.rspData ∧ t.rspCode = s.rspCode ∧
    t.resetDone = s.resetDone ∧ t.inputs = s.inputs ∧ t.freeCtr = s.freeCtr

/-- Rule R27: a command that raises an error sets the STATUS bit of that error and no other; one that raises nothing leaves
STATUS unchanged, except `STATCLR`. -/
def Obligations.RaisedErrorSetsItsStatusBitAlone : Prop :=
  ∀ (i : Instr) (s t : State), exec i s = .next t →
    ∃ r, t.queue = s.queue ++ [{ rsp := r, age := 0 }] ∧
      (∀ e, r.err = some e → ∀ j, statusBit t j = (decide (j = e.bit) || statusBit s j)) ∧
      (r.err = none → (∀ mask b, i ≠ .statclr mask b) → t.status = s.status) ∧
      ∀ mask b, i = .statclr mask b → r.err = none

/-- Rule R140: each code e sets STATUS bit e - 1, code 0 is OK, and codes 6 and 7 are never produced. -/
def Obligations.CodesNumberTheirStatusBits : Prop :=
  ∀ (i : Instr) (s t : State), exec i s = .next t →
    ∃ r, t.queue = s.queue ++ [{ rsp := r, age := 0 }] ∧ r.code.toNat ≤ 5 ∧ (r.code.toNat = 0 ↔ r.err = none) ∧
      (r.err = some .ill ↔ r.code = 1) ∧ (r.err = some .idx ↔ r.code = 2) ∧ (r.err = some .pzero ↔ r.code = 3) ∧
      (r.err = some .divz ↔ r.code = 4) ∧ (r.err = some .ovr ↔ r.code = 5) ∧
      ∀ c, r.code.toNat = c + 1 → statusBit t c = true

/-- Rule R141: when each error is raised, exactly, and the data its response records. -/
def Obligations.ErrorCauses : Prop :=
  ∀ (i : Instr) (s t : State), exec i s = .next t →
    let n := s.params.cfg.samples
    let a := i.fieldA.toNat
    let b := i.fieldB.toNat
    let op := i.opcode.toNat
    ∃ r, t.queue = s.queue ++ [{ rsp := r, age := 0 }] ∧
      (r.err = some .ill ↔ op = 0 ∨ 7 ≤ op) ∧ (r.err = some .ill → r.data = 0) ∧
      (r.err = some .idx ↔ op = 3 ∧ n < a) ∧ (r.err = some .idx → r.data = 0) ∧
      (r.err = some .pzero ↔ (op = 1 ∨ op = 2) ∧ b = 0) ∧
      (r.err = some .pzero → r.data = BitVec.ofNat 32 s.params.cfg.satMax) ∧
      (r.err = some .divz ↔ op = 1 ∧ a + 1 < b ∧ b / n = 0) ∧
      (r.err = some .divz ↔ op = 1 ∧ 2 ≤ b ∧ b ≤ n - 1 ∧ a ≤ b - 2) ∧ (r.err = some .divz → r.data = 0) ∧
      (r.err = some .ovr ↔ op = 1 ∧ a + 1 < b ∧ b / n ≠ 0 ∧ s.params.cfg.satMax < apxpExact s.params a b) ∧
      (r.err = some .ovr → r.data = BitVec.ofNat 32 (apxpExact s.params a b % 2 ^ s.params.cfg.width))

/-- Rules R26 and R145: only `STATCLR` and reset clear a STATUS bit, and `STATCLR` only the bits of its mask. -/
def Obligations.StatusBitsAreSticky : Prop :=
  ∀ (s t : State) (j : Nat), step s = .next t → s.pins.rstN = true → statusBit s j = true →
    (∀ a b, commandAt s = some (.statclr a b) → a.getLsbD j = false) → statusBit t j = true

/-- Rules R30 and R47: the responses of `APXP`, `APXF`, `LUTRD` and `IDRD` depend on no earlier command: in two states of
one block, however different, they are the same. -/
def Obligations.PureCommandsIgnoreHistory : Prop :=
  ∀ (s u s' u' : State) (a b : Word), s.params = u.params →
    ∀ i ∈ [Instr.apxp a b, .apxf a b, .lutrd a b, .idrd a b],
      exec i s = .next s' → exec i u = .next u' →
      ∃ r, s'.queue = s.queue ++ [{ rsp := r, age := 0 }] ∧ u'.queue = u.queue ++ [{ rsp := r, age := 0 }]

/-- Rule R23: the LUT, like every parameter, is the same after any number of edges, resets among them. -/
def Obligations.TableNeverChanges : Prop :=
  ∀ (k : Nat) (s t : State), runEdges k s = some t → t.params = s.params ∧ t.params.lut = s.params.lut ∧
    Memory.wf t.params = true

/-- Rule R24: elaboration makes a block of exactly the tables that pass the five checks, here spelled out, and names a check
that a refused table fails (the refusal of a `LAT` or `QDEPTH` below 1 is rule R7's bound). -/
def Obligations.ElaborationAcceptsExactlyWellFormedTables : Prop :=
  ∀ (c : Cfg) (lut : List Nat) (lat qdepth : Nat),
    ((∃ p, elaborate c lut lat qdepth = .ok p) ↔
      lut.length = c.samples + 1 ∧ (∀ v ∈ lut, v ≤ c.satMax) ∧ lut[0]? = some 0 ∧
      (∀ i x y, i < c.samples → lut[i]? = some x → lut[i + 1]? = some y → x ≤ y) ∧
      lut[c.samples]? = some c.satMax ∧ 1 ≤ lat ∧ 1 ≤ qdepth) ∧
    (∀ p, elaborate c lut lat qdepth = .ok p → p.cfg = c ∧ p.lut = lut ∧ p.lat = lat ∧ p.qdepth = qdepth) ∧
    ∀ k, elaborate c lut lat qdepth = .error (.table k) → k.passes c lut = false

/-- Rules R2 to R4: the constants of the two configurations. -/
def Obligations.ConfigurationConstants : Prop :=
  Cfg.pli8.width = 8 ∧ Cfg.pli8.samples = 8 ∧ Cfg.pli8.shift = 5 ∧ Cfg.pli8.satMax = 255 ∧
  Cfg.pli16.width = 16 ∧ Cfg.pli16.samples = 16 ∧ Cfg.pli16.shift = 4 ∧ Cfg.pli16.satMax = 65535 ∧
  (∀ c : Cfg, c.samples * 2 ^ c.shift = 256 ∧ c.shift = 8 - Nat.log2 c.samples ∧ c.satMax = 2 ^ c.width - 1) ∧
  ∀ n w c, Cfg.ofPair n w = some c ↔ c.samples = n ∧ c.width = w

/-! ### The channels and the clock -/

/-- The invariant holds right after reset of any block. -/
def Obligations.InvariantHoldsAtReset : Prop := (∀ p : Params, Inv (State.resetOf p)) ∧ Inv State.reset

/-- Every step keeps the invariant: `Q` within its capacity, `req_ready` only with room, `rsp_valid`, `rsp_data` and
`rsp_code` as rule R32 says, STATUS bits 31:5 at 0. A state before the first reset need not satisfy it. -/
def Obligations.EveryStepKeepsTheInvariant : Prop :=
  ∀ s t : State, (s.resetDone = true → Inv s) → step s = .next t → Inv t ∧ t.resetDone = true

/-- The output registers after an edge (rules R32 and R35): `req_ready` is 1 exactly when `|Q| < QDEPTH` and `rst_n` was 1 at
that edge, and `rsp_valid` exactly when the oldest entry has been in `Q` for at least `LAT` cycles, with its response on
`rsp_data` and `rsp_code`. How an entry's cycles are counted is DEDUCED, log entry 5. -/
def Obligations.OutputsAfterAnEdge : Prop :=
  ∀ s t : State, step s = .next t →
    (t.reqReady = true ↔ t.queue.length < t.params.qdepth ∧ s.pins.rstN = true) ∧
    (t.rspValid = true ↔ ∃ e q, t.queue = e :: q ∧ t.params.lat ≤ e.age) ∧
    (∀ e q, t.queue = e :: q → t.params.lat ≤ e.age → t.rspData = e.rsp.data ∧ t.rspCode = e.rsp.code)

/-- Rules R29, R32, R169: at an edge without reset the oldest entry leaves `Q` exactly if a response transfers, every other
entry stays, in order, and exactly one entry joins at the end if a request transfers, none otherwise. That each entry that
stays is one cycle older, and that a new entry has age 1 after its edge, is the model's count of cycles (DEDUCED, log entry 5). -/
def Obligations.EdgeMovesTheQueue : Prop :=
  ∀ s : State, s.resetDone = true → s.pins.rstN = true →
    ∃ t new, step s = .next t ∧
      t.queue = (if s.responseTransfers then s.queue.tail else s.queue).map QEntry.tick ++ new ∧
      new.length = (if s.requestTransfers then 1 else 0) ∧ (∀ e ∈ new, e.age = 1) ∧
      t.inputs = s.inputs.tail ∧ t.params = s.params ∧ (s.requestTransfers = false → t.status = s.status)

/-- Rule R32: once `rsp_valid = 1`, the block holds `rsp_valid`, `rsp_data` and `rsp_code` stable until the response
transfers. -/
def Obligations.ResponseIsHeldUntilItTransfers : Prop :=
  ∀ s : State, Inv s → s.resetDone = true → s.rspValid = true → s.pins.rstN = true → s.pins.rspReady = false →
    ∃ t, step s = .next t ∧ t.rspValid = true ∧ t.rspData = s.rspData ∧ t.rspCode = s.rspCode ∧
      hostReads t = hostReads s

/-- Rules R45 to R47: over any run without reset, whatever `LAT`, `QDEPTH`, the backpressure and the host do, the responses
delivered so far followed by those still in `Q` are exactly those of the commands accepted, executed one at a time in
acceptance order, one response each; and STATUS is what that execution leaves. -/
def Obligations.ClockedBlockRefinesTheCommandStream : Prop :=
  ∀ (k : Nat) (s t : State), Inv s → s.resetDone = true → ResetFree k s → runEdges k s = some t →
    ∃ u, execAll (commandsIn k s) s = some u ∧ u.status = t.status ∧
      deliveredIn k s ++ queuedPorts t = queuedPorts u ∧
      u.queue.length = s.queue.length + (commandsIn k s).length

/-- Rule R168, with cycles counted as the model reads them (DEDUCED, log entry 5): a command accepted into an empty `Q` has its response valid exactly `LAT`
cycles after its request transfers and not before, for every opcode and operand. -/
def Obligations.ResponseIsValidAfterExactlyLatCycles : Prop :=
  ∀ (s : State) (m : Nat), s.resetDone = true → s.queue = [] → s.requestTransfers = true → ResetFree m s →
    1 ≤ m → m ≤ s.params.lat →
    ∃ t u r, runEdges m s = some t ∧ exec (decode s.pins.request) s = .next u ∧ u.queue = [{ rsp := r, age := 0 }] ∧
      (t.rspValid = true ↔ m = s.params.lat) ∧ (m = s.params.lat → t.rspData = r.data ∧ t.rspCode = r.code)

/-- Rules R32 and R167 (a): a request that the host holds, as its duty is, is still on the pins after an edge at which it
does not transfer, and is the command accepted once `req_ready = 1`. -/
def Obligations.HeldRequestIsTheOneAccepted : Prop :=
  ∀ s : State, HostHoldsRequest s → s.resetDone = true → s.pins.rstN = true → s.pins.reqValid = true → s.reqReady = false →
    ∃ t, step s = .next t ∧ commandAt s = none ∧ t.pins.request = s.pins.request ∧
      (t.reqReady = true → t.pins.rstN = true → commandAt t = some (decode s.pins.request))

/-- Rule R167: while the host takes no response a full block is held, not faulted, for any number of edges, and accepts
nothing; the hold lifts when the host takes one. -/
def Obligations.BackpressureHoldsTheBlock : Prop :=
  (∀ (k : Nat) (s : State), Inv s → s.resetDone = true → s.queue.length = s.params.qdepth →
    (∀ p ∈ s.inputs.take k, p.rstN = true ∧ p.rspReady = false) →
    ∃ t, runEdges k s = some t ∧ t.queue.map QEntry.rsp = s.queue.map QEntry.rsp ∧ t.status = s.status ∧
      t.reqReady = false ∧ commandsIn k s = [] ∧ deliveredIn k s = []) ∧
  ∀ s : State, Inv s → s.resetDone = true → s.queue.length = s.params.qdepth → s.rspValid = true →
    s.pins.rstN = true → s.pins.rspReady = true → ∃ t, step s = .next t ∧ t.reqReady = true

/-! ### The generator and the assembler -/

/-- Rule R122: what the generator refuses, emitting no table. -/
def Obligations.GeneratorRefusesBadInputs : Prop :=
  ∀ (f : Curve) (period : Int) (n w : Nat),
    (period ≤ 0 ∨ (¬ ∃ k, n = 2 ^ k) ∨ ((n, w) ≠ (8, 8) ∧ (n, w) ≠ (16, 16))) →
    ∃ e, generate f period n w = .error e

/-- Rules R125 and R130: a sample that is not finite refuses the generation, and only that: where every sample is finite the
generator answers a table, of N+1 entries: each sample truncated toward zero and reduced mod `2^W`, then MAX. -/
def Obligations.GeneratorConvertsAndAppendsTheSentinel : Prop :=
  ∀ (f : Curve) (period : Int) (c : Cfg), 0 < period →
    let sample (k : Nat) : Option Int := (f (sampleOffset period c.samples k) (F64.ofInt period)).trunc
    ((∃ k, k < c.samples ∧ sample k = none) ↔ generate f period c.samples c.width = .error .nonFinite) ∧
    ((∀ k, k < c.samples → sample k ≠ none) →
      ∃ lut, generate f period c.samples c.width = .ok lut ∧
        lut.length = c.samples + 1 ∧ lut[c.samples]? = some c.satMax ∧
        ∀ k, k < c.samples → ∃ v : Int, sample k = some v ∧ lut[k]? = some (v % (2 ^ c.width : Nat)).toNat)

/-- Rule R126: `LEN`, `RANGE` and `SENT` hold of every generated table; `ZERO` when the first sample truncates to 0; `MONO`
when the truncated samples do not fall and lie in `[0, MAX]`; and then elaboration accepts it. -/
def Obligations.GeneratedTablePassesItsChecks : Prop :=
  ∀ (f : Curve) (period : Int) (c : Cfg) (lut : List Nat), 0 < period → generate f period c.samples c.width = .ok lut →
    let sample (k : Nat) : Option Int := (f (sampleOffset period c.samples k) (F64.ofInt period)).trunc
    let zero : Prop := sample 0 = some 0
    let mono : Prop :=
      (∀ k v, k < c.samples → sample k = some v → 0 ≤ v ∧ v ≤ c.satMax) ∧
      ∀ k v v', k + 1 < c.samples → sample k = some v → sample (k + 1) = some v' → v ≤ v'
    LutCheck.passes c lut .len = true ∧ LutCheck.passes c lut .range = true ∧ LutCheck.passes c lut .sent = true ∧
    (zero → LutCheck.passes c lut .zero = true) ∧ (mono → LutCheck.passes c lut .mono = true) ∧
    (zero → mono → ∃ p, elaborate c lut 1 1 = .ok p ∧ p.lut = lut)

/-- Rule R124: the generator's binary64 conversion is round-to-nearest-even, over every ratio. Zero gives the zero of the sign.
A ratio below the overflow threshold, half a last place above the greatest finite number, gives a finite number, and from the
threshold on infinity of the sign. A finite result is in the format's form, no number of the format is nearer to the exact
ratio, and where another number of the format is as near, the result's significand is even. -/
def Obligations.RoundingIsToNearestEven : Prop :=
  ∀ (neg : Bool) (num den : Nat), 0 < den →
    let x : ℚ := (num : ℚ) / den
    (num = 0 → F64.ofRatio neg num den = .fin neg 0 (-1074)) ∧
    (x < (2 ^ 54 - 1) * 2 ^ 970 → ∃ m e, F64.ofRatio neg num den = .fin neg m e) ∧
    ((2 ^ 54 - 1) * 2 ^ 970 ≤ x → F64.ofRatio neg num den = .inf neg) ∧
    ∀ (s : Bool) (m : Nat) (e : Int), F64.ofRatio neg num den = .fin s m e →
      s = neg ∧ m < 2 ^ 53 ∧ -1074 ≤ e ∧ e ≤ 971 ∧ (2 ^ 52 ≤ m ∨ e = -1074) ∧
      ∀ (k : Nat) (f : Int), k < 2 ^ 53 → -1074 ≤ f → f ≤ 971 →
        |x - m * (2 : ℚ) ^ e| ≤ |x - k * (2 : ℚ) ^ f| ∧
        (|x - m * (2 : ℚ) ^ e| = |x - k * (2 : ℚ) ^ f| → (k : ℚ) * (2 : ℚ) ^ f = m * (2 : ℚ) ^ e ∨ m % 2 = 0)

/-- Rules R123, R124 and R128, for the W = 8 curve that the spec supplies from general knowledge (PRESUMED, log entry 12): the
exact curve rises strictly over the period, and at the samples 1 to 7 stays more than 0.0718 away from every integer; for
every library within 1000 units in the last place of `exp` and `sin`, and every period that a command can carry, the
generator's binary64 samples are within `10^-9` of the exact curve and its table is the source's `lut8`; and so it is for the
model's own library (PRESUMED, log entry 21). -/
def Obligations.ReferenceCurveGivesTheSourceTable : Prop :=
  ∀ (exp sin : F64 → F64) (period : Int), LibraryWithin 1000 exp sin → 0 < period → period < 2 ^ 32 →
    let curve (t : ℝ) : ℝ := (Real.exp (Real.sin ((t - period / 2) * Real.pi / period)) - 0.36787944) * 108
    StrictMonoOn curve (Set.Icc 0 period) ∧ |curve 0 - 1.3e-7| < 1e-8 ∧ |curve period - 253.84| < 0.01 ∧
    (∀ k : Nat, 1 ≤ k → k < 8 → ∀ n : Int, 0.0718 < |curve (k * period / 8) - n|) ∧
    (∀ k : Nat, k < 8 → ∃ y : ℚ, (curve8 exp sin (sampleOffset period 8 k) (F64.ofInt period)).value = some y ∧
      |(y : ℝ) - curve (k * period / 8)| < 1e-9) ∧
    generate (curve8 exp sin) period 8 8 = .ok [0, 3, 13, 33, 68, 118, 179, 232, 255] ∧
    generate (refCurve .pli8) period 8 8 = .ok [0, 3, 13, 33, 68, 118, 179, 232, 255]

/-- Rule R67: what each line assembles to, and that operands too wide are refused. -/
def Obligations.AssemblerEncodesEachLine : Prop :=
  (∀ (c : Cfg) (x y : Nat), x < 2 ^ 32 → y < 2 ^ 32 →
    let word (op : Opcode) (b a : Nat) : Except AsmRefusal (List ReqWord) :=
      .ok [packReq op (BitVec.ofNat 32 b) (BitVec.ofNat 32 a)]
    assemble c (.apxp x y) = word 0x1 y x ∧ assemble c (.apxf x y) = word 0x2 y x ∧
    assemble c (.lutrd x) = word 0x3 0 x ∧ assemble c .statrd = word 0x4 0 0 ∧
    assemble c (.statclr x) = word 0x5 0 x ∧ assemble c .idrd = word 0x6 0 0 ∧
    ∀ op, op < 2 ^ 4 → assemble c (.req op y x) = word (BitVec.ofNat 4 op) y x) ∧
  ∀ (c : Cfg) (x y op : Nat),
    (2 ^ 32 ≤ x ∨ 2 ^ 32 ≤ y →
      assemble c (.apxp x y) = .error .operand ∧ assemble c (.apxf x y) = .error .operand ∧
      assemble c (.req op y x) = .error .operand) ∧
    (2 ^ 32 ≤ x → assemble c (.lutrd x) = .error .operand ∧ assemble c (.statclr x) = .error .operand) ∧
    (2 ^ 4 ≤ op → assemble c (.req op y x) = .error .operand)

/-- Rule R68: the expansions of the pseudo-instructions. -/
def Obligations.PseudoInstructionExpansions : Prop :=
  ∀ (c : Cfg) (x y : Nat),
    assemble c .clrall = assemble c (.statclr 0x1F) ∧ assemble c (.apx x y) = assemble c (.apxf x y) ∧
    ∃ ws, assemble c .lutrdall = .ok ws ∧ ws.length = c.samples + 1 ∧
      ∀ i, i ≤ c.samples → ∃ w, ws[i]? = some w ∧ assemble c (.lutrd i) = .ok [w] ∧ decode w = .lutrd (BitVec.ofNat 32 i) 0

/-- Rule R63: the assembler writes 0 in ignored fields: every word of every line but `.req` decodes to a canonical
command. -/
def Obligations.AssembledCommandsAreCanonical : Prop :=
  ∀ (c : Cfg) (l : AsmLine) (ws : List ReqWord), assemble c l = .ok ws → (∀ op b a, l ≠ .req op b a) →
    ∀ w ∈ ws, (decode w).Canonical = true
end

