-- ==== Sys2Proof/Laws/Decode.lean ====
section
/-! SUPPORT. The fields of a packed request word. -/

namespace Sys2Proof

@[simp] theorem reqOp_packReq (op : Opcode) (b a : Word) : reqOp (packReq op b a) = op := by
  apply BitVec.eq_of_toNat_eq
  have ha := a.isLt
  have hb := b.isLt
  have ho := op.isLt
  simp only [reqOp, packReq, BitVec.extractLsb'_toNat, BitVec.toNat_append, Nat.shiftRight_eq_div_pow]
  rw [← Nat.shiftLeft_add_eq_or_of_lt hb, ← Nat.shiftLeft_add_eq_or_of_lt ha, Nat.shiftLeft_eq, Nat.shiftLeft_eq]
  omega

@[simp] theorem reqB_packReq (op : Opcode) (b a : Word) : reqB (packReq op b a) = b := by
  apply BitVec.eq_of_toNat_eq
  have ha := a.isLt
  have hb := b.isLt
  have ho := op.isLt
  simp only [reqB, packReq, BitVec.extractLsb'_toNat, BitVec.toNat_append, Nat.shiftRight_eq_div_pow]
  rw [← Nat.shiftLeft_add_eq_or_of_lt hb, ← Nat.shiftLeft_add_eq_or_of_lt ha, Nat.shiftLeft_eq, Nat.shiftLeft_eq]
  omega

@[simp] theorem reqA_packReq (op : Opcode) (b a : Word) : reqA (packReq op b a) = a := by
  apply BitVec.eq_of_toNat_eq
  have ha := a.isLt
  have hb := b.isLt
  have ho := op.isLt
  simp only [reqA, packReq, BitVec.extractLsb'_toNat, BitVec.toNat_append, Nat.shiftRight_eq_div_pow]
  rw [← Nat.shiftLeft_add_eq_or_of_lt hb, ← Nat.shiftLeft_add_eq_or_of_lt ha, Nat.shiftLeft_eq, Nat.shiftLeft_eq]
  omega

/-- A request word is its three fields (rule R60). -/
theorem packReq_fields (w : ReqWord) : packReq (reqOp w) (reqB w) (reqA w) = w := by
  apply BitVec.eq_of_toNat_eq
  have hw := w.isLt
  have ha := (reqA w).isLt
  have hb := (reqB w).isLt
  simp only [packReq, BitVec.toNat_append]
  rw [← Nat.shiftLeft_add_eq_or_of_lt hb, ← Nat.shiftLeft_add_eq_or_of_lt ha, Nat.shiftLeft_eq, Nat.shiftLeft_eq]
  simp only [reqOp, reqB, reqA, BitVec.extractLsb'_toNat, Nat.shiftRight_eq_div_pow]
  omega

/-- Decoding a packed request is the opcode map of its fields (rule R66). -/
theorem decode_packReq (op : Opcode) (b a : Word) : decode (packReq op b a) = decodeFields op b a := by
  simp [decode]

end Sys2Proof
end

