-- ==== Sys2Proof/Laws/Float64.lean ====
section
/-! SUPPORT. What the binary64 operations of the generator answer, in the numbers that the values stand for (rule R124). -/

namespace Sys2Proof

@[simp] theorem F64.value_fin (s : Bool) (m : Nat) (e : Int) :
    (F64.fin s m e).value = some ((signFactor s : ℚ) * m * (2 : ℚ) ^ e) := rfl
@[simp] theorem signFactor_true : signFactor true = -1 := rfl
@[simp] theorem signFactor_false : signFactor false = 1 := rfl

theorem abs_signFactor (s : Bool) : |(signFactor s : ℚ)| = 1 := by cases s <;> simp

theorem signFactor_mul_natAbs (n : Int) : (signFactor (decide (n < 0)) : ℚ) * (n.natAbs : ℚ) = n := by
  rw [Nat.cast_natAbs]
  by_cases h : n < 0
  · simp [h, abs_of_neg]
  · simp [h, abs_of_nonneg (not_lt.1 h)]

/-- The magnitude of a finite value is a ratio with a positive denominator. -/
theorem magnitude_spec (m : Nat) (e : Int) :
    0 < (magnitude m e).2 ∧ ((magnitude m e).1 : ℚ) / (magnitude m e).2 = m * (2 : ℚ) ^ e := by
  unfold magnitude
  split
  · simp_all
  split
  · rename_i h
    obtain ⟨n, rfl⟩ := Int.eq_ofNat_of_zero_le h
    simp
  · rename_i h
    obtain ⟨n, hn⟩ := Int.eq_ofNat_of_zero_le (show 0 ≤ -e by omega)
    obtain rfl : e = -(n : Int) := by omega
    refine ⟨by positivity, ?_⟩
    simp [div_eq_mul_inv]

theorem scaleRatio_spec (num den : Nat) (q : Int) (hd : 0 < den) :
    0 < (scaleRatio num den q).2 ∧
      ((scaleRatio num den q).1 : ℚ) / (scaleRatio num den q).2 = (num : ℚ) / den / (2 : ℚ) ^ q := by
  unfold scaleRatio
  have hd' : (den : ℚ) ≠ 0 := by positivity
  split
  · rename_i h
    obtain ⟨n, rfl⟩ := Int.eq_ofNat_of_zero_le h
    exact ⟨by positivity, by simp [div_div]⟩
  · rename_i h
    obtain ⟨n, hn⟩ := Int.eq_ofNat_of_zero_le (show 0 ≤ -q by omega)
    obtain rfl : q = -(n : Int) := by omega
    refine ⟨hd, ?_⟩
    simp
    field_simp

/-- The nearest integer is within a half, and even at a half. -/
theorem roundHalfEven_spec (n d : Nat) (hd : 0 < d) :
    |(n : ℚ) / d - roundHalfEven n d| ≤ 1 / 2 ∧
      (|(n : ℚ) / d - roundHalfEven n d| = 1 / 2 → roundHalfEven n d % 2 = 0) := by
  have hdq : (0 : ℚ) < d := by exact_mod_cast hd
  have hdm := Nat.div_add_mod n d
  have hlt := Nat.mod_lt n hd
  unfold roundHalfEven
  simp only
  generalize n / d = q at *
  generalize n % d = r at *
  have hn : (n : ℚ) / d = q + r / d := by rw [← hdm]; push_cast; field_simp
  have hr0 : (0 : ℚ) ≤ r / d := by positivity
  have hlt1 : (r : ℚ) / d < 1 := by rw [div_lt_one hdq]; exact_mod_cast hlt
  rw [hn]
  split
  · rename_i h
    have : (r : ℚ) / d < 1 / 2 := by
      rw [div_lt_div_iff₀ hdq (by norm_num)]
      exact_mod_cast (show r * 2 < 1 * d by omega)
    rw [show (q : ℚ) + r / d - q = r / d by ring, abs_of_nonneg hr0]
    exact ⟨this.le, fun h => absurd h this.ne⟩
  split
  · rename_i h
    have : 1 / 2 < (r : ℚ) / d := by
      rw [div_lt_div_iff₀ (by norm_num) hdq]
      exact_mod_cast (show 1 * d < r * 2 by omega)
    push_cast
    rw [show (q : ℚ) + r / d - (q + 1) = -(1 - r / d) by ring, abs_neg, abs_of_nonneg (by linarith)]
    exact ⟨by linarith, fun h => by linarith⟩
  · have h3 : (r : ℚ) / d = 1 / 2 := by
      rw [div_eq_div_iff hdq.ne' (by norm_num)]
      exact_mod_cast (show r * 2 = 1 * d by omega)
    rw [h3]
    rcases Nat.mod_two_eq_zero_or_one q with h | h <;> rw [h] <;> push_cast <;>
      exact ⟨by ring_nf; norm_num, fun _ => by omega⟩

theorem ratioLog2_spec (num den : Nat) (hn : 0 < num) (hd : 0 < den) :
    (2 : ℚ) ^ ratioLog2 num den ≤ (num : ℚ) / den ∧ (num : ℚ) / den < (2 : ℚ) ^ (ratioLog2 num den + 1) := by
  have hdq : (0 : ℚ) < den := by exact_mod_cast hd
  have a1 : (2 : ℚ) ^ (Nat.log2 num) ≤ num := by exact_mod_cast Nat.log2_self_le (by omega)
  have a2 : (num : ℚ) < 2 ^ (Nat.log2 num + 1) := by exact_mod_cast Nat.lt_log2_self
  have b1 : (2 : ℚ) ^ (Nat.log2 den) ≤ den := by exact_mod_cast Nat.log2_self_le (by omega)
  have b2 : (den : ℚ) < 2 ^ (Nat.log2 den + 1) := by exact_mod_cast Nat.lt_log2_self
  obtain ⟨hs1, hs2⟩ := scaleRatio_spec num den ((Nat.log2 num : Int) - Nat.log2 den) hd
  unfold ratioLog2
  simp only
  generalize Nat.log2 num = x at *
  generalize Nat.log2 den = y at *
  have hs1' : (0 : ℚ) < (scaleRatio num den (x - y)).2 := by exact_mod_cast hs1
  have hz : (0 : ℚ) < (2 : ℚ) ^ ((x : Int) - y) := by positivity
  have pow (a b : ℕ) (c : Int) (h : (a : Int) = c + b) : (2 : ℚ) ^ a = (2 : ℚ) ^ c * 2 ^ b := by
    rw [← zpow_natCast, ← zpow_natCast, ← zpow_add₀ (by norm_num), h]
  have up : (num : ℚ) / den < (2 : ℚ) ^ ((x : Int) - y + 1) := by
    rw [div_lt_iff₀ hdq]
    calc (num : ℚ) < 2 ^ (x + 1) := a2
      _ = (2 : ℚ) ^ ((x : Int) - y + 1) * 2 ^ y := pow _ _ _ (by push_cast; ring)
      _ ≤ _ := by gcongr
  have lo : (2 : ℚ) ^ ((x : Int) - y - 1) ≤ (num : ℚ) / den := by
    rw [le_div_iff₀ hdq]
    calc (2 : ℚ) ^ ((x : Int) - y - 1) * den ≤ (2 : ℚ) ^ ((x : Int) - y - 1) * 2 ^ (y + 1) := by gcongr
      _ = 2 ^ x := (pow _ _ _ (by push_cast; ring)).symm
      _ ≤ _ := a1
  split
  · rename_i h
    have : (1 : ℚ) ≤ (num : ℚ) / den / (2 : ℚ) ^ ((x : Int) - y) := by
      rw [← hs2, le_div_iff₀ hs1', one_mul]; exact_mod_cast h
    exact ⟨by rwa [le_div_iff₀ hz, one_mul] at this, up⟩
  · rename_i h
    have : (num : ℚ) / den / (2 : ℚ) ^ ((x : Int) - y) < 1 := by
      rw [← hs2, div_lt_one hs1']; exact_mod_cast (not_le.1 h)
    exact ⟨lo, by rwa [sub_add_cancel, ← div_lt_one hz]⟩

/-- Everything `F64.ofRatio` does to a ratio that is not 0: the last place that it rounds to, before a carry, and the result. -/
theorem ofRatio_place (num den : Nat) (hn : 0 < num) (hd : 0 < den) :
    ∃ (m : Nat) (q : Int), -1074 ≤ q ∧ m ≤ 2 ^ 53 ∧ (2 ^ 52 ≤ m ∨ q = -1074) ∧
      (q = -1074 ∨ (2 : ℚ) ^ 52 * (2 : ℚ) ^ q ≤ (num : ℚ) / den) ∧ (num : ℚ) / den < (2 : ℚ) ^ 53 * (2 : ℚ) ^ q ∧
      |(num : ℚ) / den - m * (2 : ℚ) ^ q| ≤ (2 : ℚ) ^ q / 2 ∧
      (|(num : ℚ) / den - m * (2 : ℚ) ^ q| = (2 : ℚ) ^ q / 2 → m % 2 = 0) ∧
      ∀ neg, F64.ofRatio neg num den =
        if m = 2 ^ 53 then (if 971 < q + 1 then .inf neg else .fin neg (2 ^ 52) (q + 1))
        else if 971 < q then .inf neg else .fin neg m q := by
  obtain ⟨l1, l2⟩ := ratioLog2_spec num den hn hd
  obtain ⟨s1, s2⟩ := scaleRatio_spec num den (max (ratioLog2 num den - 52) F64.minExp) hd
  obtain ⟨r1, r2⟩ := roundHalfEven_spec (scaleRatio num den (max (ratioLog2 num den - 52) F64.minExp)).1 _ s1
  rw [s2] at r1 r2
  have hrun : ∀ neg, F64.ofRatio neg num den = _ := fun neg => by
    unfold F64.ofRatio
    rw [if_neg (by omega)]
  simp only [F64.maxExp] at hrun
  generalize roundHalfEven _ _ = m at *
  have hor : max (ratioLog2 num den - 52) F64.minExp = ratioLog2 num den - 52 ∨
      max (ratioLog2 num den - 52) F64.minExp = -1074 := by unfold F64.minExp; omega
  have hle : ratioLog2 num den - 52 ≤ max (ratioLog2 num den - 52) F64.minExp := le_max_left _ _
  have hmin : -1074 ≤ max (ratioLog2 num den - 52) F64.minExp := le_max_right _ _
  generalize max (ratioLog2 num den - 52) F64.minExp = q at *
  generalize (num : ℚ) / den = x at *
  have hz : (0 : ℚ) < (2 : ℚ) ^ q := by positivity
  have hr := abs_le.1 r1
  have hup : x < (2 : ℚ) ^ 53 * (2 : ℚ) ^ q := by
    rw [← zpow_natCast, ← zpow_add₀ (by norm_num)]
    exact lt_of_lt_of_le l2 (zpow_le_zpow_right₀ (by norm_num) (by push_cast; omega))
  have hlow : q = -1074 ∨ (2 : ℚ) ^ 52 * (2 : ℚ) ^ q ≤ x := by
    refine hor.symm.imp_right fun h => ?_
    rw [← zpow_natCast, ← zpow_add₀ (by norm_num)]
    exact le_of_eq_of_le (by congr 1; push_cast; omega) l1
  have herr : |x - m * (2 : ℚ) ^ q| = |x / 2 ^ q - m| * 2 ^ q := by
    rw [show x - m * (2 : ℚ) ^ q = (x / 2 ^ q - m) * 2 ^ q by field_simp, abs_mul, abs_of_pos hz]
  refine ⟨m, q, hmin, ?_, ?_, hlow, hup, ?_, fun h => r2 ?_, fun neg => ?_⟩
  · by_contra hc
    have hc' : (2 : ℚ) ^ 53 + 1 ≤ m := by exact_mod_cast (show 2 ^ 53 + 1 ≤ m by omega)
    have : x / (2 : ℚ) ^ q < 2 ^ 53 := (div_lt_iff₀ hz).2 hup
    linarith
  · refine hlow.symm.imp_left fun h1 => ?_
    by_contra hc
    have hc' : (m : ℚ) + 1 ≤ 2 ^ 52 := by exact_mod_cast (show m + 1 ≤ 2 ^ 52 by omega)
    have : (2 : ℚ) ^ 52 ≤ x / (2 : ℚ) ^ q := (le_div_iff₀ hz).2 h1
    linarith
  · rw [herr]
    nlinarith
  · rw [herr] at h
    exact mul_right_cancel₀ hz.ne' (h.trans (by ring))
  · rw [hrun]
    split <;> rfl

/-- A ratio below 2^200 rounds to a finite value, within half a unit in its last place; the significand has 53 bits,
or the place is the least one. -/
theorem ofRatio_finite (neg : Bool) (num den : Nat) (hd : 0 < den) (hx : (num : ℚ) / den ≤ 2 ^ 200) :
    ∃ (m : Nat) (e : Int), F64.ofRatio neg num den = .fin neg m e ∧ -1074 ≤ e ∧ (2 ^ 52 ≤ m ∨ e = -1074) ∧
      |(num : ℚ) / den - m * (2 : ℚ) ^ e| ≤ (2 : ℚ) ^ e / 2 := by
  rcases Nat.eq_zero_or_pos num with rfl | hn
  · exact ⟨0, -1074, by simp [F64.ofRatio, F64.minExp], le_refl _, .inr rfl, by simp; positivity⟩
  obtain ⟨m, q, h1, h2, h3, -, -, h4, -, h5⟩ := ofRatio_place num den hn hd
  have hq : q ≤ 900 := by
    by_contra hc
    have hm : (2 : ℚ) ^ 52 ≤ m := by exact_mod_cast h3.resolve_right (by omega)
    have hz : (2 : ℚ) ^ 200 ≤ (2 : ℚ) ^ q := by
      rw [← zpow_natCast]; exact zpow_le_zpow_right₀ (by norm_num) (by push_cast; omega)
    have := abs_le.1 h4
    generalize (2 : ℚ) ^ q = z at *
    nlinarith
  rw [h5]
  split
  · rename_i hm
    refine ⟨2 ^ 52, q + 1, by rw [if_neg (by omega)], by omega, .inl (le_refl _), ?_⟩
    rw [hm] at h4
    rw [zpow_add₀ (by norm_num)]
    calc _ = |(num : ℚ) / den - ((2 ^ 53 : ℕ) : ℚ) * 2 ^ q| := by congr 1; push_cast; ring
      _ ≤ _ := h4
      _ ≤ _ := by have : (0 : ℚ) < 2 ^ q := by positivity
                  norm_num; linarith
  · exact ⟨m, q, by rw [if_neg (by omega)], h1, h3, h4⟩

/-- The rounding of one operation: a result `c` that is within `2^-52` of the exact value, relatively, or within the least
number of the format. -/
def roundsTo (r : F64) (exact : ℚ) : Prop :=
  ∃ c : ℚ, r.value = some c ∧ |c - exact| ≤ (2 : ℚ) ^ (-52 : ℤ) * |exact| + (2 : ℚ) ^ (-1074 : ℤ)

theorem ofRatio_roundsTo (neg : Bool) (num den : Nat) (hd : 0 < den) (hx : (num : ℚ) / den ≤ 2 ^ 200) :
    roundsTo (F64.ofRatio neg num den) ((signFactor neg : ℚ) * ((num : ℚ) / den)) := by
  obtain ⟨m, e, h1, -, h2, h3⟩ := ofRatio_finite neg num den hd hx
  refine ⟨_, by rw [h1, F64.value_fin], ?_⟩
  have h0 : (0 : ℚ) ≤ (num : ℚ) / den := by positivity
  rw [mul_assoc, ← mul_sub, abs_mul, abs_mul, abs_signFactor, one_mul, one_mul, abs_sub_comm, abs_of_nonneg h0]
  refine le_trans h3 ?_
  rcases h2 with hm | rfl
  · have hz : (0 : ℚ) < (2 : ℚ) ^ e := by positivity
    have hm' : (2 : ℚ) ^ 52 * (2 : ℚ) ^ e ≤ m * (2 : ℚ) ^ e := mul_le_mul_of_nonneg_right (by exact_mod_cast hm) hz.le
    have := (abs_le.1 h3).1
    have ht : (0 : ℚ) ≤ (2 : ℚ) ^ (-1074 : ℤ) := by positivity
    rw [show (2 : ℚ) ^ (-52 : ℤ) = 1 / 4503599627370496 by norm_num]
    norm_num at hm'
    linarith
  · have hs : (0 : ℚ) ≤ (2 : ℚ) ^ (-52 : ℤ) * ((num : ℚ) / den) := mul_nonneg (by positivity) h0
    have ht : (0 : ℚ) ≤ (2 : ℚ) ^ (-1074 : ℤ) := by positivity
    exact le_add_of_nonneg_of_le hs (half_le_self ht)

theorem ofInt_roundsTo (n : Int) (h : |(n : ℚ)| ≤ 2 ^ 200) : roundsTo (F64.ofInt n) n := by
  have := ofRatio_roundsTo (decide (n < 0)) n.natAbs 1 one_pos (by rwa [Nat.cast_natAbs, Int.cast_abs, Nat.cast_one, div_one])
  rwa [Nat.cast_one, div_one, signFactor_mul_natAbs] at this

/-- A finite value as the signed ratio of its magnitude. -/
theorem value_eq_ratio {s : Bool} {m : Nat} {e : Int} {a : ℚ} (h : (F64.fin s m e).value = some a) :
    a = signFactor s * (((magnitude m e).1 : ℚ) / (magnitude m e).2) := by
  rw [F64.value_fin, Option.some.injEq] at h
  rw [(magnitude_spec m e).2, ← h, mul_assoc]

theorem neg_value {x : F64} {a : ℚ} (hx : x.value = some a) : x.neg.value = some (-a) := by
  match x, hx with
  | .fin s m e, hx =>
    rw [F64.value_fin, Option.some.injEq] at hx
    subst hx
    cases s <;> simp [F64.neg]

theorem mul_roundsTo {x y : F64} {a b : ℚ} (hx : x.value = some a) (hy : y.value = some b) (h : |a * b| ≤ 2 ^ 200) :
    roundsTo (x.mul y) (a * b) := by
  match x, y, hx, hy with
  | .fin s m e, .fin t k f, hx, hy =>
    have p := (magnitude_spec m e).1
    have q := (magnitude_spec k f).1
    rw [value_eq_ratio hx, value_eq_ratio hy] at h ⊢
    simp only [F64.mul]
    have key : (signFactor s : ℚ) * (((magnitude m e).1 : ℚ) / (magnitude m e).2) *
        (signFactor t * (((magnitude k f).1 : ℚ) / (magnitude k f).2)) =
        signFactor (s != t) * (((magnitude m e).1 * (magnitude k f).1 : ℕ) / ((magnitude m e).2 * (magnitude k f).2 : ℕ)) := by
      push_cast
      rw [mul_div_mul_comm]
      cases s <;> cases t <;> simp
    rw [key] at h ⊢
    rw [abs_mul, abs_signFactor, one_mul, abs_of_nonneg (by positivity)] at h
    exact ofRatio_roundsTo _ _ _ (Nat.mul_pos p q) h

theorem div_roundsTo {x y : F64} {a b : ℚ} (hx : x.value = some a) (hy : y.value = some b) (hb : b ≠ 0)
    (h : |a / b| ≤ 2 ^ 200) : roundsTo (x.div y) (a / b) := by
  match x, y, hx, hy with
  | .fin s m e, .fin t k f, hx, hy =>
    have p := (magnitude_spec m e).1
    have hk : k ≠ 0 := by
      rintro rfl
      rw [F64.value_fin, Option.some.injEq] at hy
      exact hb (by rw [← hy]; simp)
    have q : 0 < (magnitude k f).1 := by
      rw [Nat.pos_iff_ne_zero]
      intro h0
      rw [value_eq_ratio hy, h0] at hb
      simp at hb
    rw [value_eq_ratio hx, value_eq_ratio hy] at h ⊢
    simp only [F64.div, if_neg hk]
    have key : (signFactor s : ℚ) * (((magnitude m e).1 : ℚ) / (magnitude m e).2) /
        (signFactor t * (((magnitude k f).1 : ℚ) / (magnitude k f).2)) =
        signFactor (s != t) * (((magnitude m e).1 * (magnitude k f).2 : ℕ) / ((magnitude m e).2 * (magnitude k f).1 : ℕ)) := by
      push_cast
      rw [← div_div_div_eq]
      cases s <;> cases t <;> simp [neg_div, div_div_div_eq, mul_comm]
    rw [key] at h ⊢
    rw [abs_mul, abs_signFactor, one_mul, abs_of_nonneg (by positivity)] at h
    exact ofRatio_roundsTo _ _ _ (Nat.mul_pos p q) h

theorem add_roundsTo {x y : F64} {a b : ℚ} (hx : x.value = some a) (hy : y.value = some b) (h : |a + b| ≤ 2 ^ 200) :
    roundsTo (x.add y) (a + b) := by
  match x, y, hx, hy with
  | .fin s m e, .fin t k f, hx, hy =>
    have p := (magnitude_spec m e).1
    have q := (magnitude_spec k f).1
    rw [value_eq_ratio hx, value_eq_ratio hy] at h ⊢
    simp only [F64.add]
    generalize magnitude m e = u at *
    generalize magnitude k f = v at *
    have hp : (u.2 : ℚ) ≠ 0 := by positivity
    have hq : (v.2 : ℚ) ≠ 0 := by positivity
    generalize hn : signFactor s * ((u.1 * v.2 : ℕ) : ℤ) + signFactor t * ((v.1 * u.2 : ℕ) : ℤ) = n
    have key : (signFactor s : ℚ) * ((u.1 : ℚ) / u.2) + signFactor t * ((v.1 : ℚ) / v.2) =
        signFactor (decide (n < 0)) * ((n.natAbs : ℚ) / (u.2 * v.2 : ℕ)) := by
      rw [← mul_div_assoc (signFactor (decide (n < 0)) : ℚ), signFactor_mul_natAbs, ← hn]
      push_cast
      field_simp
    rw [key] at h ⊢
    split
    · rename_i h0
      refine ⟨0, by simp, ?_⟩
      rw [h0]
      simp
    · rw [abs_mul, abs_signFactor, one_mul, abs_of_nonneg (by positivity)] at h
      exact ofRatio_roundsTo _ _ _ (Nat.mul_pos p q) h

theorem sub_roundsTo {x y : F64} {a b : ℚ} (hx : x.value = some a) (hy : y.value = some b) (h : |a - b| ≤ 2 ^ 200) :
    roundsTo (x.sub y) (a - b) := by
  rw [sub_eq_add_neg] at h ⊢
  exact add_roundsTo hx (neg_value hy) h

/-- Truncation toward zero of a value that is not negative is its integer part. -/
theorem trunc_of_value {x : F64} {a : ℚ} {n : ℕ} (hx : x.value = some a) (h1 : (n : ℚ) ≤ a) (h2 : a < n + 1) :
    x.trunc = some (n : ℤ) := by
  match x, hx with
  | .fin s m e, hx =>
    have p := (magnitude_spec m e).1
    rw [value_eq_ratio hx] at h1 h2
    simp only [F64.trunc, Option.some.injEq]
    generalize magnitude m e = u at *
    have p' : (0 : ℚ) < u.2 := by exact_mod_cast p
    have hr : (0 : ℚ) ≤ (u.1 : ℚ) / u.2 := by positivity
    cases s
    · simp only [signFactor_false, Int.cast_one, one_mul] at h1 h2 ⊢
      rw [le_div_iff₀ p'] at h1
      rw [div_lt_iff₀ p'] at h2
      norm_cast at h1 h2 ⊢
      exact Nat.div_eq_of_lt_le h1 h2
    · simp only [signFactor_true] at h1 h2 ⊢
      push_cast at h1 h2
      have hn : n = 0 := by
        have : (n : ℚ) ≤ 0 := by linarith
        exact Nat.le_zero.1 (by exact_mod_cast this)
      have hz : u.1 = 0 := by
        have : (u.1 : ℚ) / u.2 = 0 := by subst hn; push_cast at h1; linarith
        rw [div_eq_zero_iff] at this
        exact_mod_cast this.resolve_right p'.ne'
      simp [hz, hn]

/-- A value between -1 and 1 truncates to 0. -/
theorem trunc_eq_zero {x : F64} {a : ℚ} (hx : x.value = some a) (h : |a| < 1) : x.trunc = some 0 := by
  match x, hx with
  | .fin s m e, hx =>
    have p := (magnitude_spec m e).1
    rw [value_eq_ratio hx, abs_mul, abs_signFactor, one_mul, abs_of_nonneg (by positivity)] at h
    have p' : (0 : ℚ) < ((magnitude m e).2 : ℚ) := by exact_mod_cast p
    rw [div_lt_one p'] at h
    have h' : (magnitude m e).1 < (magnitude m e).2 := by exact_mod_cast h
    simp only [F64.trunc, Nat.div_eq_of_lt h']
    simp

end Sys2Proof
end

