-- ==== Sys2Proof/Laws/Generator.lean ====
section
/-! SUPPORT. What the generator's functions answer (rules R122, R125, R127). -/

namespace Sys2Proof.Machine

theorem ofPair_of_cfg (c : Cfg) : Cfg.ofPair c.samples c.width = some c := by cases c <;> decide

/-- `generate` for a configuration and a positive period. -/
theorem generate_of_cfg (f : Curve) (period : Int) (c : Cfg) (hp : 0 < period) :
    generate f period c.samples c.width =
      match samplesOf f period c.samples c.width (List.range c.samples) with
      | none => .error .nonFinite
      | some body => .ok (body ++ [c.satMax]) := by
  unfold generate
  rw [if_neg (by omega), if_neg (by cases c <;> decide), ofPair_of_cfg] <;> rfl

/-- The samples are refused exactly for one that is not finite. -/
theorem samplesOf_eq_none (f : Curve) (period : Int) (n w : Nat) (ks : List Nat) :
    samplesOf f period n w ks = none ↔ ∃ k ∈ ks, (f (sampleOffset period n k) (F64.ofInt period)).trunc = none := by
  induction ks with
  | nil => simp [samplesOf]
  | cons k ks ih =>
    rw [List.exists_mem_cons_iff, ← ih, samplesOf]
    cases (f (sampleOffset period n k) (F64.ofInt period)).trunc <;> cases samplesOf f period n w ks <;> simp

/-- The samples in order, each truncated and wrapped. -/
theorem samplesOf_eq_some {f : Curve} {period : Int} {n w : Nat} {ks l : List Nat} (h : samplesOf f period n w ks = some l) :
    l.length = ks.length ∧ ∀ j k : Nat, ks[j]? = some k →
      ∃ v : Int, (f (sampleOffset period n k) (F64.ofInt period)).trunc = some v ∧ l[j]? = some (wrapSample w v) := by
  induction ks generalizing l with
  | nil => simp [samplesOf] at h; subst h; simp
  | cons k ks ih =>
    unfold samplesOf at h
    split at h
    · rename_i v rest h1 h2
      cases h
      obtain ⟨g1, g2⟩ := ih h2
      refine ⟨by simp [g1], fun j k' hj => ?_⟩
      cases j with
      | zero => simp at hj; subst hj; exact ⟨v, h1, by simp⟩
      | succ j => simpa using g2 j k' (by simpa using hj)
    · cases h

/-- A number in decimal reads back as that number. -/
theorem decimal_reads_back (v : Nat) : Nat.ofDigitChars 10 (decimal v) 0 = v := Nat.ofDigitChars_ten_toDigits

/-- The declaration of a table holds its integers, in decimal and in order (rule R127). -/
theorem arrayDecl_reads_back (c : Cfg) (lut : List Nat) :
    (arrayDecl c lut).elements.map (fun e => Nat.ofDigitChars 10 e 0) = lut := by
  rw [show (arrayDecl c lut).elements = lut.map decimal from rfl, List.map_map]
  exact (List.map_congr_left fun v _ => decimal_reads_back v).trans (List.map_id _)

/-- The length that the declaration states: 9 for W = 8 and 17 for W = 16 (rule R127). -/
theorem arrayDecl_length (c : Cfg) (lut : List Nat) :
    (arrayDecl c lut).elementBits = c.width ∧ (arrayDecl c lut).length = (if c = .pli8 then 9 else 17) ∧
      (arrayDecl c lut).elements.length = lut.length := by
  cases c <;> exact ⟨rfl, rfl, by simp [arrayDecl]⟩

/-- The tool emits the declaration of exactly the table that `generate` answers, and refuses exactly where it refuses. -/
theorem runGenerator_of_cfg (f : Curve) (period : Int) (c : Cfg) :
    runGenerator f period c.samples c.width =
      match generate f period c.samples c.width with
      | .ok lut => .ok (arrayDecl c lut, generatorReport c lut)
      | .error e => .error e := by
  unfold runGenerator
  rw [ofPair_of_cfg]
  cases generate f period c.samples c.width <;> rfl

end Sys2Proof.Machine
end

