-- ==== Sys2Proof/Laws/Library.lean ====
section
/-! SUPPORT. The library's `exp` and `sin` obey the premise of rule R128: they are within 5 units in the last place. -/

namespace Sys2Proof

open Finset Nat

/-- `expHorner` from k = 1 on is a partial sum of the exponential series; from a later k on, its tail divided by a factor. -/
theorem expHorner_spec (num : Int) (den : Nat) (hd : 0 < den) (terms k : Nat) :
    0 < (expHorner num den terms (k + 1)).2 ∧
      ((expHorner num den terms (k + 1)).1 : ℚ) / (expHorner num den terms (k + 1)).2 =
        ∑ j ∈ range (terms + 1), ((num : ℚ) / den) ^ j * (k ! : ℚ) / ((k + j) ! : ℚ) := by
  induction terms generalizing k with
  | zero => simp [expHorner, Nat.factorial_ne_zero]
  | succ t ih =>
    obtain ⟨h1, h2⟩ := ih (k + 1)
    rw [sum_range_succ']
    simp only [expHorner]
    generalize expHorner num den t (k + 1 + 1) = r at *
    obtain ⟨a, b⟩ := r
    have hdq : (den : ℚ) ≠ 0 := by positivity
    have hbq : (b : ℚ) ≠ 0 := by have : 0 < b := h1; positivity
    refine ⟨by have : 0 < b := h1; positivity, ?_⟩
    have hsum : ∑ j ∈ range (t + 1), ((num : ℚ) / den) ^ (j + 1) * (k ! : ℚ) / ((k + (j + 1)) ! : ℚ) =
        (num : ℚ) / den / (k + 1) * ((a : ℚ) / b) := by
      rw [h2, mul_sum]
      refine sum_congr rfl fun j _ => ?_
      have : k + 1 + j = k + (j + 1) := by ring
      rw [this, Nat.factorial_succ k, pow_succ]
      generalize (num : ℚ) / den = x
      push_cast
      field_simp
    rw [hsum]
    have hk : (k ! : ℚ) ≠ 0 := by positivity
    push_cast
    simp only [pow_zero, add_zero, one_mul]
    field_simp
    ring

/-- The same for the series of `sin x / x` in `y = x^2`. -/
theorem sinHorner_spec (num den : Nat) (hd : 0 < den) (terms k : Nat) :
    0 < (sinHorner num den terms (k + 1)).2 ∧
      ((sinHorner num den terms (k + 1)).1 : ℚ) / (sinHorner num den terms (k + 1)).2 =
        ∑ j ∈ range (terms + 1), (-((num : ℚ) / den)) ^ j * ((2 * k + 1) ! : ℚ) / ((2 * k + 1 + 2 * j) ! : ℚ) := by
  induction terms generalizing k with
  | zero => simp [sinHorner, Nat.factorial_ne_zero]
  | succ t ih =>
    obtain ⟨h1, h2⟩ := ih (k + 1)
    rw [sum_range_succ']
    simp only [sinHorner]
    generalize sinHorner num den t (k + 1 + 1) = r at *
    obtain ⟨a, b⟩ := r
    have hdq : (den : ℚ) ≠ 0 := by positivity
    have hbq : (b : ℚ) ≠ 0 := by have : 0 < b := h1; positivity
    refine ⟨by have : 0 < b := h1; positivity, ?_⟩
    have hsum : ∑ j ∈ range (t + 1),
        (-((num : ℚ) / den)) ^ (j + 1) * ((2 * k + 1) ! : ℚ) / ((2 * k + 1 + 2 * (j + 1)) ! : ℚ) =
        -((num : ℚ) / den) / ((2 * (k + 1)) * (2 * (k + 1) + 1)) * ((a : ℚ) / b) := by
      rw [h2, mul_sum]
      refine sum_congr rfl fun j _ => ?_
      have : 2 * (k + 1) + 1 + 2 * j = 2 * k + 1 + 2 * (j + 1) := by ring
      rw [this, show 2 * (k + 1) + 1 = 2 * k + 1 + 1 + 1 by ring, Nat.factorial_succ (2 * k + 1 + 1),
        Nat.factorial_succ (2 * k + 1), pow_succ]
      generalize (num : ℚ) / den = x
      push_cast
      field_simp
      ring
    rw [hsum]
    have hk : ((2 * k + 1) ! : ℚ) ≠ 0 := by positivity
    push_cast
    simp only [pow_zero, add_zero, one_mul]
    field_simp
    ring

theorem exp_series_bound {x : ℝ} (hx : |x| ≤ 2) :
    |Real.exp x - ∑ m ∈ range 31, x ^ m / (m ! : ℝ)| ≤ |x| ^ 31 / (31 ! : ℝ) * 2 := by
  have h := @Complex.exp_bound' (x : ℂ) 31 (by
    rw [Complex.norm_real, Real.norm_eq_abs, div_le_iff₀ (by norm_num)]; norm_num; linarith)
  rw [Complex.norm_real, Real.norm_eq_abs] at h
  rw [← Real.norm_eq_abs, ← Complex.norm_real]
  push_cast
  exact h

theorem sin_series_bound {x : ℝ} (hx : |x| ≤ 2) :
    |Real.sin x - ∑ j ∈ range 15, (-1) ^ j * x ^ (2 * j + 1) / ((2 * j + 1) ! : ℝ)| ≤ |x| ^ 30 / (30 ! : ℝ) * 2 := by
  have h := @Complex.exp_bound' (x * Complex.I) 30 (by
    rw [norm_mul, Complex.norm_I, Complex.norm_real, Real.norm_eq_abs, div_le_iff₀ (by norm_num)]; norm_num; linarith)
  rw [norm_mul, Complex.norm_I, mul_one, Complex.norm_real, Real.norm_eq_abs] at h
  refine le_trans ?_ h
  rw [show Real.sin x - ∑ j ∈ range 15, (-1) ^ j * x ^ (2 * j + 1) / ((2 * j + 1) ! : ℝ) =
    (Complex.exp (x * Complex.I) - ∑ m ∈ range 30, (x * Complex.I) ^ m / (m ! : ℂ)).im from ?_]
  · exact Complex.abs_im_le_norm _
  rw [Complex.sub_im, Complex.exp_ofReal_mul_I_im, Complex.im_sum]
  congr 1
  have pair (f : ℕ → ℝ) (n : ℕ) : ∑ m ∈ range (2 * n), f m = ∑ j ∈ range n, (f (2 * j) + f (2 * j + 1)) := by
    induction n with
    | zero => rfl
    | succ n ih => rw [sum_range_succ, ← ih, show 2 * (n + 1) = 2 * n + 1 + 1 by ring, sum_range_succ, sum_range_succ]; ring
  rw [show 30 = 2 * 15 from rfl, pair]
  refine sum_congr rfl fun j _ => ?_
  have hI : (Complex.I) ^ (2 * j) = ((((-1 : ℝ)) ^ j : ℝ) : ℂ) := by rw [pow_mul, Complex.I_sq]; push_cast; rfl
  have h0 : ((x * Complex.I) ^ (2 * j) / ((2 * j) ! : ℂ)).im = 0 := by
    rw [mul_pow, hI, show ((x : ℂ) ^ (2 * j) * (((-1 : ℝ) ^ j : ℝ) : ℂ) / ((2 * j) ! : ℂ)) =
      ((x ^ (2 * j) * (-1) ^ j / ((2 * j) ! : ℝ) : ℝ) : ℂ) by push_cast; rfl, Complex.ofReal_im]
  have h1 : ((x * Complex.I) ^ (2 * j + 1) / ((2 * j + 1) ! : ℂ)).im = (-1) ^ j * x ^ (2 * j + 1) / ((2 * j + 1) ! : ℝ) := by
    rw [mul_pow, pow_succ Complex.I, hI,
      show ((x : ℂ) ^ (2 * j + 1) * ((((-1 : ℝ) ^ j : ℝ) : ℂ) * Complex.I) / ((2 * j + 1) ! : ℂ)) =
        (((-1) ^ j * x ^ (2 * j + 1) / ((2 * j + 1) ! : ℝ) : ℝ) : ℂ) * Complex.I by push_cast; ring,
      Complex.im_ofReal_mul, Complex.I_im, mul_one]
  rw [h0, h1, zero_add]

/-- On `|x| <= 2` the sine is no smaller than a third of its argument. -/
theorem abs_sin_lower {x : ℝ} (hx : |x| ≤ 2) : |x| / 3 ≤ |Real.sin x| := by
  wlog h0 : 0 ≤ x generalizing x
  · have := this (x := -x) (by rwa [abs_neg]) (by linarith)
    rwa [abs_neg, Real.sin_neg, abs_neg] at this
  rcases eq_or_lt_of_le h0 with rfl | h1
  · simp
  rw [abs_of_pos h1] at hx ⊢
  have hs := Real.sin_gt_sub_cube h1
  have : x ^ 3 ≤ 4 * x := by nlinarith [mul_nonneg h1.le (show 0 ≤ 4 - x ^ 2 by nlinarith)]
  exact le_trans (by linarith) (le_abs_self _)

theorem exp_lower {x : ℝ} (hx : |x| ≤ 2) : 1 / 8 ≤ |Real.exp x| := by
  rw [abs_of_pos (Real.exp_pos _)]
  refine le_trans ?_ (Real.exp_le_exp.2 (show (-2 : ℝ) ≤ x by linarith [(abs_le.1 hx).1]))
  rw [show (-2 : ℝ) = -1 + -1 by norm_num, Real.exp_add]
  nlinarith [Real.exp_neg_one_gt_d9]

theorem exp_tail : (2 : ℝ) ^ 31 / (31 ! : ℝ) * 2 ≤ 2⁻¹ ^ 62 * (1 / 8) := by norm_num [Nat.factorial]

theorem sin_tail : (2 : ℝ) ^ 29 / (30 ! : ℝ) * 2 ≤ 2⁻¹ ^ 62 * (1 / 3) := by norm_num [Nat.factorial]

/-- The value of the power series of `exp`, before it is rounded. -/
theorem seriesExp_ratio {s : Bool} {m : Nat} {e : Int} {v : ℚ} (hv : (F64.fin s m e).value = some v) (h2 : |v| ≤ 2) :
    ∃ (a : Int) (b : Nat), 0 < b ∧ (F64.fin s m e).seriesExp = F64.ofSignedRatio a b ∧
      |(((a : ℚ) / b : ℚ) : ℝ) - Real.exp v| ≤ 2⁻¹ ^ 62 * |Real.exp v| := by
  obtain ⟨h1, h3⟩ := magnitude_spec m e
  obtain ⟨h4, h5⟩ := expHorner_spec (signFactor s * (magnitude m e).1) (magnitude m e).2 h1 30 0
  refine ⟨(expHorner (signFactor s * (magnitude m e).1) (magnitude m e).2 30 1).1,
    (expHorner (signFactor s * (magnitude m e).1) (magnitude m e).2 30 1).2, h4, rfl, ?_⟩
  rw [zero_add] at h5
  have hx : ((signFactor s * (magnitude m e).1 : ℤ) : ℚ) / (magnitude m e).2 = v := by
    rw [F64.value_fin, Option.some.injEq] at hv
    push_cast
    rw [mul_div_assoc, h3, ← hv]
    ring
  rw [h5, hx]
  have hr : |(v : ℝ)| ≤ 2 := by exact_mod_cast h2
  have hb := exp_series_bound hr
  rw [abs_sub_comm]
  push_cast
  simp only [zero_add, Nat.factorial_zero, Nat.cast_one, mul_one]
  refine le_trans hb ?_
  have hp : |(v : ℝ)| ^ 31 ≤ 2 ^ 31 := by gcongr
  refine le_trans ?_ (le_trans exp_tail (mul_le_mul_of_nonneg_left (exp_lower hr) (by positivity)))
  gcongr

/-- The value of the power series of `sin`, before it is rounded. -/
theorem seriesSin_ratio {s : Bool} {m : Nat} {e : Int} {v : ℚ} (hv : (F64.fin s m e).value = some v) (h2 : |v| ≤ 2) :
    ∃ (a : Int) (b : Nat), 0 < b ∧ (F64.fin s m e).seriesSin = F64.ofSignedRatio a b ∧
      |(((a : ℚ) / b : ℚ) : ℝ) - Real.sin v| ≤ 2⁻¹ ^ 62 * |Real.sin v| := by
  obtain ⟨h1, h3⟩ := magnitude_spec m e
  obtain ⟨h4, h5⟩ := sinHorner_spec ((magnitude m e).1 * (magnitude m e).1) ((magnitude m e).2 * (magnitude m e).2)
    (Nat.mul_pos h1 h1) 14 0
  refine ⟨signFactor s * (magnitude m e).1 * (sinHorner ((magnitude m e).1 * (magnitude m e).1)
      ((magnitude m e).2 * (magnitude m e).2) 14 1).1, (magnitude m e).2 * (sinHorner ((magnitude m e).1 *
      (magnitude m e).1) ((magnitude m e).2 * (magnitude m e).2) 14 1).2, Nat.mul_pos h1 h4, rfl, ?_⟩
  rw [zero_add] at h5
  have hs : (signFactor s : ℚ) * signFactor s = 1 := by cases s <;> simp
  have hx : (signFactor s : ℚ) * (((magnitude m e).1 : ℚ) / (magnitude m e).2) = v := by
    rw [F64.value_fin, Option.some.injEq] at hv
    rw [h3, ← hv]
    ring
  have hy : (((magnitude m e).1 * (magnitude m e).1 : ℕ) : ℚ) / ((magnitude m e).2 * (magnitude m e).2 : ℕ) = v ^ 2 := by
    rw [← hx, mul_pow, sq (signFactor s : ℚ), hs]
    push_cast
    ring
  rw [hy] at h5
  have hr : |(v : ℝ)| ≤ 2 := by exact_mod_cast h2
  have hb := sin_series_bound hr
  have hval : (((signFactor s * (magnitude m e).1 * (sinHorner ((magnitude m e).1 * (magnitude m e).1)
      ((magnitude m e).2 * (magnitude m e).2) 14 1).1 : ℤ) : ℚ) / ((magnitude m e).2 * (sinHorner ((magnitude m e).1 *
      (magnitude m e).1) ((magnitude m e).2 * (magnitude m e).2) 14 1).2 : ℕ) : ℚ) =
      ∑ j ∈ range 15, (-1) ^ j * v ^ (2 * j + 1) / ((2 * j + 1) ! : ℚ) := by
    push_cast
    rw [mul_div_mul_comm, mul_div_assoc, hx, h5, mul_sum]
    refine sum_congr rfl fun j _ => ?_
    rw [show 2 * 0 + 1 + 2 * j = 2 * j + 1 by ring, neg_pow, ← pow_mul, pow_succ v (2 * j)]
    simp
    ring
  rw [hval, abs_sub_comm]
  push_cast
  refine le_trans hb ?_
  have hp : |(v : ℝ)| ^ 29 ≤ 2 ^ 29 := by gcongr
  have hl := abs_sin_lower hr
  refine le_trans ?_ (mul_le_mul_of_nonneg_left hl (show (0 : ℝ) ≤ 2⁻¹ ^ 62 by positivity))
  calc |(v : ℝ)| ^ 30 / (30 ! : ℝ) * 2 = |(v : ℝ)| * (|(v : ℝ)| ^ 29 / (30 ! : ℝ) * 2) := by ring
    _ ≤ |(v : ℝ)| * (2 ^ 29 / (30 ! : ℝ) * 2) := by gcongr
    _ ≤ |(v : ℝ)| * (2⁻¹ ^ 62 * (1 / 3)) := mul_le_mul_of_nonneg_left sin_tail (abs_nonneg _)
    _ = _ := by ring

/-- What `heldTo` answers differs from `near` by at most `libraryUlps` units in the last place of `near`. -/
theorem heldTo_spec (t : Bool) (k : Nat) (f : Int) (free : F64) :
    ∃ y : ℚ, (F64.heldTo (.fin t k f) free).value = some y ∧
      |y - (signFactor t : ℚ) * k * (2 : ℚ) ^ f| ≤ libraryUlps * (2 : ℚ) ^ f := by
  unfold F64.heldTo
  split
  · rename_i h
    rw [Bool.and_eq_true] at h
    obtain ⟨-, h⟩ := h
    match free, h with
    | .fin s m e, h =>
      refine ⟨_, rfl, ?_⟩
      simp only [F64.withinUlps, decide_eq_true_eq] at h
      obtain ⟨a1, a2⟩ := magnitude_spec m e
      obtain ⟨b1, b2⟩ := magnitude_spec k f
      obtain ⟨c1, c2⟩ := magnitude_spec 1 f
      rw [mul_assoc, ← a2, mul_assoc, ← b2, show (2 : ℚ) ^ f = ((magnitude 1 f).1 : ℚ) / (magnitude 1 f).2 by rw [c2]; simp]
      generalize magnitude m e = p at *
      generalize magnitude k f = q at *
      generalize magnitude 1 f = r at *
      have a1' : (0 : ℚ) < p.2 := by exact_mod_cast a1
      have b1' : (0 : ℚ) < q.2 := by exact_mod_cast b1
      have c1' : (0 : ℚ) < r.2 := by exact_mod_cast c1
      have h' : |(signFactor s : ℚ) * (p.1 * q.2) - signFactor t * (q.1 * p.2)| * r.2 ≤
          libraryUlps * r.1 * (p.2 * q.2) := by
        have := (Nat.cast_le (α := ℚ)).2 h
        rw [Nat.cast_mul, Nat.cast_natAbs] at this
        push_cast at this
        exact this
      rw [show (signFactor s : ℚ) * ((p.1 : ℚ) / p.2) - signFactor t * (q.1 / q.2) =
        ((signFactor s : ℚ) * (p.1 * q.2) - signFactor t * (q.1 * p.2)) / (p.2 * q.2) by field_simp,
        abs_div, abs_of_pos (mul_pos a1' b1'), ← mul_div_assoc, div_le_div_iff₀ (mul_pos a1' b1') c1']
      exact h'
  · exact ⟨_, rfl, by simp; positivity⟩

/-- A ratio close to a number, rounded and held to the library's tolerance, is within 5 units in the last place of it. -/
theorem heldTo_near {a : Int} {b : Nat} {g : ℝ} (hb : 0 < b) (hg : |g| ≤ 2 ^ 100)
    (h : |(((a : ℚ) / b : ℚ) : ℝ) - g| ≤ 2⁻¹ ^ 62 * |g|) (free : F64) :
    ∃ y : ℚ, (F64.heldTo (F64.ofSignedRatio a b) free).value = some y ∧
      |(y : ℝ) - g| ≤ (5 : ℕ) * max ((2 : ℝ) ^ (-52 : ℤ) * |g|) ((2 : ℝ) ^ (-1074 : ℤ)) := by
  have hbq : (0 : ℚ) < b := by exact_mod_cast hb
  have habs : |((a : ℚ) / b)| = (a.natAbs : ℚ) / b := by
    rw [abs_div, abs_of_pos hbq, Nat.cast_natAbs, Int.cast_abs]
  have hdef : (a : ℚ) / b = signFactor (decide (a < 0)) * ((a.natAbs : ℚ) / b) := by
    rw [← mul_div_assoc, signFactor_mul_natAbs]
  generalize (a : ℚ) / b = r at h habs hdef
  have hS : |(r : ℝ)| ≤ (1 + 2⁻¹ ^ 62) * |g| := by
    have := abs_sub_abs_le_abs_sub (r : ℝ) g
    linarith
  have hle : (a.natAbs : ℚ) / b ≤ 2 ^ 200 := by
    rw [← habs]
    have : |(r : ℝ)| ≤ 2 ^ 200 := by
      refine le_trans hS (le_trans (mul_le_mul_of_nonneg_left hg (by positivity)) (by norm_num))
    exact_mod_cast this
  obtain ⟨m, e, hr, -, hplace, herr⟩ := ofRatio_finite (decide (a < 0)) a.natAbs b hb hle
  obtain ⟨y, hy, hyerr⟩ := heldTo_spec (decide (a < 0)) m e free
  rw [F64.ofSignedRatio, hr]
  refine ⟨y, hy, ?_⟩
  have hround : |(signFactor (decide (a < 0)) : ℚ) * m * (2 : ℚ) ^ e - r| ≤ (2 : ℚ) ^ e / 2 := by
    rw [hdef, mul_assoc, ← mul_sub, abs_mul, abs_signFactor, one_mul, abs_sub_comm]
    exact herr
  have htotal : |(y : ℝ) - (r : ℝ)| ≤ 9 / 2 * (2 : ℝ) ^ e := by
    have : |y - r| ≤ 9 / 2 * (2 : ℚ) ^ e := by
      refine le_trans (abs_sub_le _ ((signFactor (decide (a < 0)) : ℚ) * m * (2 : ℚ) ^ e) _) ?_
      unfold libraryUlps at hyerr
      push_cast at hyerr
      linarith
    have := (Rat.cast_le (K := ℝ)).2 this
    push_cast at this
    exact this
  have hunit : (2 : ℝ) ^ e ≤ 101 / 100 * max ((2 : ℝ) ^ (-52 : ℤ) * |g|) ((2 : ℝ) ^ (-1074 : ℤ)) := by
    rcases hplace with hm | rfl
    · refine le_trans ?_ (mul_le_mul_of_nonneg_left (le_max_left _ _) (by norm_num))
      have hz : (0 : ℝ) < (2 : ℝ) ^ e := by positivity
      have hm' : (2 : ℝ) ^ 52 * (2 : ℝ) ^ e ≤ m * (2 : ℝ) ^ e :=
        mul_le_mul_of_nonneg_right (by exact_mod_cast hm) hz.le
      have herr' : |(r : ℝ)| ≥ m * (2 : ℝ) ^ e - (2 : ℝ) ^ e / 2 := by
        have : |r| ≥ m * (2 : ℚ) ^ e - (2 : ℚ) ^ e / 2 := by rw [habs]; linarith [(abs_le.1 herr).1]
        have := (Rat.cast_le (K := ℝ)).2 this
        push_cast at this
        exact this
      rw [show (2 : ℝ) ^ (-52 : ℤ) = 1 / 4503599627370496 by norm_num]
      norm_num at hm' hS ⊢
      linarith [abs_nonneg g]
    · refine le_trans (le_max_right ((2 : ℝ) ^ (-52 : ℤ) * |g|) _) (le_mul_of_one_le_left ?_ (by norm_num))
      positivity
  have hseries : 2⁻¹ ^ 62 * |g| ≤ 1 / 1000 * max ((2 : ℝ) ^ (-52 : ℤ) * |g|) ((2 : ℝ) ^ (-1074 : ℤ)) := by
    refine le_trans ?_ (mul_le_mul_of_nonneg_left (le_max_left _ _) (by norm_num))
    rw [← mul_assoc]
    exact mul_le_mul_of_nonneg_right (by norm_num) (abs_nonneg g)
  refine le_trans (abs_sub_le _ (r : ℝ) _) ?_
  have hM : (0 : ℝ) ≤ max ((2 : ℝ) ^ (-52 : ℤ) * |g|) ((2 : ℝ) ^ (-1074 : ℤ)) := le_max_of_le_left (by positivity)
  generalize max ((2 : ℝ) ^ (-52 : ℤ) * |g|) ((2 : ℝ) ^ (-1074 : ℤ)) = M at *
  push_cast
  linarith

/-- A finite value on the range is one the library is held on. -/
theorem inLibraryRange_of_value {s : Bool} {m : Nat} {e : Int} {v : ℚ} (hv : (F64.fin s m e).value = some v)
    (h2 : |v| ≤ 2) : (F64.fin s m e).inLibraryRange = true := by
  obtain ⟨h1, h3⟩ := magnitude_spec m e
  have h1' : (0 : ℚ) < (magnitude m e).2 := by exact_mod_cast h1
  rw [F64.value_fin, Option.some.injEq] at hv
  rw [← hv, mul_assoc, abs_mul, abs_signFactor, one_mul, abs_of_nonneg (by positivity), ← h3, div_le_iff₀ h1'] at h2
  simp only [F64.inLibraryRange, decide_eq_true_eq]
  exact_mod_cast h2

/-- The library of the model obeys rule R128's premise with 5 units in the last place. -/
theorem library_within : Machine.LibraryWithin 5 libraryExp librarySin := by
  intro x v hv h2
  match x, hv with
  | .fin s m e, hv =>
    have hrange := inLibraryRange_of_value hv h2
    have hr : |(v : ℝ)| ≤ 2 := by exact_mod_cast h2
    unfold libraryExp librarySin
    rw [if_pos hrange, if_pos hrange]
    constructor
    · obtain ⟨a, b, hb, heq, hnear⟩ := seriesExp_ratio hv h2
      rw [heq]
      refine heldTo_near hb ?_ hnear _
      rw [abs_of_pos (Real.exp_pos _)]
      refine le_trans (Real.exp_le_exp.2 (show (v : ℝ) ≤ 1 + 1 by linarith [(abs_le.1 hr).2])) ?_
      rw [Real.exp_add]
      nlinarith [Real.exp_one_lt_d9, Real.exp_pos 1]
    · obtain ⟨a, b, hb, heq, hnear⟩ := seriesSin_ratio hv h2
      rw [heq]
      exact heldTo_near hb (le_trans (Real.abs_sin_le_one _) (by norm_num)) hnear _

theorem libraryWithin_mono {j k : Nat} (h : j ≤ k) {exp sin : F64 → F64} (hw : Machine.LibraryWithin j exp sin) :
    Machine.LibraryWithin k exp sin := by
  intro x v hv h2
  obtain ⟨⟨y, hy, he⟩, z, hz, hs⟩ := hw x v hv h2
  have hjk : (j : ℝ) ≤ k := by exact_mod_cast h
  exact ⟨⟨y, hy, le_trans he (by gcongr)⟩, z, hz, le_trans hs (by gcongr)⟩

end Sys2Proof
end

