-- ==== Sys2Proof/Laws/State.lean ====
section
/-! SUPPORT. What each shared operation does to each field of State: one lemma per field per operation, so that no proof
unfolds a record update. -/

namespace Sys2Proof.Machine

variable (s : State)

@[simp] theorem writeStatus_params (v : Word) : (writeStatus v s).params = s.params := rfl
@[simp] theorem writeStatus_status (v : Word) : (writeStatus v s).status = v &&& statusBits := rfl
@[simp] theorem writeStatus_queue (v : Word) : (writeStatus v s).queue = s.queue := rfl
@[simp] theorem writeStatus_reqReady (v : Word) : (writeStatus v s).reqReady = s.reqReady := rfl
@[simp] theorem writeStatus_rspValid (v : Word) : (writeStatus v s).rspValid = s.rspValid := rfl
@[simp] theorem writeStatus_rspData (v : Word) : (writeStatus v s).rspData = s.rspData := rfl
@[simp] theorem writeStatus_rspCode (v : Word) : (writeStatus v s).rspCode = s.rspCode := rfl
@[simp] theorem writeStatus_resetDone (v : Word) : (writeStatus v s).resetDone = s.resetDone := rfl
@[simp] theorem writeStatus_inputs (v : Word) : (writeStatus v s).inputs = s.inputs := rfl
@[simp] theorem writeStatus_freeCtr (v : Word) : (writeStatus v s).freeCtr = s.freeCtr := rfl

@[simp] theorem setStatusBit_params (e : Err) : (setStatusBit e s).params = s.params := rfl
@[simp] theorem setStatusBit_status (e : Err) : (setStatusBit e s).status = (readStatus s ||| e.mask) &&& statusBits := rfl
@[simp] theorem setStatusBit_queue (e : Err) : (setStatusBit e s).queue = s.queue := rfl
@[simp] theorem setStatusBit_reqReady (e : Err) : (setStatusBit e s).reqReady = s.reqReady := rfl
@[simp] theorem setStatusBit_rspValid (e : Err) : (setStatusBit e s).rspValid = s.rspValid := rfl
@[simp] theorem setStatusBit_rspData (e : Err) : (setStatusBit e s).rspData = s.rspData := rfl
@[simp] theorem setStatusBit_rspCode (e : Err) : (setStatusBit e s).rspCode = s.rspCode := rfl
@[simp] theorem setStatusBit_resetDone (e : Err) : (setStatusBit e s).resetDone = s.resetDone := rfl
@[simp] theorem setStatusBit_inputs (e : Err) : (setStatusBit e s).inputs = s.inputs := rfl
@[simp] theorem setStatusBit_freeCtr (e : Err) : (setStatusBit e s).freeCtr = s.freeCtr := rfl

@[simp] theorem clearStatusBits_params (m : Word) : (clearStatusBits m s).params = s.params := rfl
@[simp] theorem clearStatusBits_status (m : Word) : (clearStatusBits m s).status = (readStatus s &&& ~~~m) &&& statusBits := rfl
@[simp] theorem clearStatusBits_queue (m : Word) : (clearStatusBits m s).queue = s.queue := rfl
@[simp] theorem clearStatusBits_reqReady (m : Word) : (clearStatusBits m s).reqReady = s.reqReady := rfl
@[simp] theorem clearStatusBits_rspValid (m : Word) : (clearStatusBits m s).rspValid = s.rspValid := rfl
@[simp] theorem clearStatusBits_rspData (m : Word) : (clearStatusBits m s).rspData = s.rspData := rfl
@[simp] theorem clearStatusBits_rspCode (m : Word) : (clearStatusBits m s).rspCode = s.rspCode := rfl
@[simp] theorem clearStatusBits_resetDone (m : Word) : (clearStatusBits m s).resetDone = s.resetDone := rfl
@[simp] theorem clearStatusBits_inputs (m : Word) : (clearStatusBits m s).inputs = s.inputs := rfl
@[simp] theorem clearStatusBits_freeCtr (m : Word) : (clearStatusBits m s).freeCtr = s.freeCtr := rfl

@[simp] theorem appendResponse_params (r : Response) : (appendResponse r s).params = s.params := rfl
@[simp] theorem appendResponse_status (r : Response) : (appendResponse r s).status = s.status := rfl
@[simp] theorem appendResponse_queue (r : Response) : (appendResponse r s).queue = s.queue ++ [{ rsp := r, age := 0 }] := rfl
@[simp] theorem appendResponse_reqReady (r : Response) : (appendResponse r s).reqReady = s.reqReady := rfl
@[simp] theorem appendResponse_rspValid (r : Response) : (appendResponse r s).rspValid = s.rspValid := rfl
@[simp] theorem appendResponse_rspData (r : Response) : (appendResponse r s).rspData = s.rspData := rfl
@[simp] theorem appendResponse_rspCode (r : Response) : (appendResponse r s).rspCode = s.rspCode := rfl
@[simp] theorem appendResponse_resetDone (r : Response) : (appendResponse r s).resetDone = s.resetDone := rfl
@[simp] theorem appendResponse_inputs (r : Response) : (appendResponse r s).inputs = s.inputs := rfl
@[simp] theorem appendResponse_freeCtr (r : Response) : (appendResponse r s).freeCtr = s.freeCtr := rfl

@[simp] theorem raiseErr_params (e : Option Err) : (raiseErr e s).params = s.params := by cases e <;> rfl
@[simp] theorem raiseErr_queue (e : Option Err) : (raiseErr e s).queue = s.queue := by cases e <;> rfl
@[simp] theorem raiseErr_reqReady (e : Option Err) : (raiseErr e s).reqReady = s.reqReady := by cases e <;> rfl
@[simp] theorem raiseErr_rspValid (e : Option Err) : (raiseErr e s).rspValid = s.rspValid := by cases e <;> rfl
@[simp] theorem raiseErr_rspData (e : Option Err) : (raiseErr e s).rspData = s.rspData := by cases e <;> rfl
@[simp] theorem raiseErr_rspCode (e : Option Err) : (raiseErr e s).rspCode = s.rspCode := by cases e <;> rfl
@[simp] theorem raiseErr_resetDone (e : Option Err) : (raiseErr e s).resetDone = s.resetDone := by cases e <;> rfl
@[simp] theorem raiseErr_inputs (e : Option Err) : (raiseErr e s).inputs = s.inputs := by cases e <;> rfl
@[simp] theorem raiseErr_freeCtr (e : Option Err) : (raiseErr e s).freeCtr = s.freeCtr := by cases e <;> rfl

@[simp] theorem completeCommand_params (r : Response) : (completeCommand r s).params = s.params := by simp [completeCommand]
@[simp] theorem completeCommand_status (r : Response) : (completeCommand r s).status = (raiseErr r.err s).status := by simp [completeCommand]
@[simp] theorem completeCommand_queue (r : Response) : (completeCommand r s).queue = s.queue ++ [{ rsp := r, age := 0 }] := by simp [completeCommand]
@[simp] theorem completeCommand_reqReady (r : Response) : (completeCommand r s).reqReady = s.reqReady := by simp [completeCommand]
@[simp] theorem completeCommand_rspValid (r : Response) : (completeCommand r s).rspValid = s.rspValid := by simp [completeCommand]
@[simp] theorem completeCommand_rspData (r : Response) : (completeCommand r s).rspData = s.rspData := by simp [completeCommand]
@[simp] theorem completeCommand_rspCode (r : Response) : (completeCommand r s).rspCode = s.rspCode := by simp [completeCommand]
@[simp] theorem completeCommand_resetDone (r : Response) : (completeCommand r s).resetDone = s.resetDone := by simp [completeCommand]
@[simp] theorem completeCommand_inputs (r : Response) : (completeCommand r s).inputs = s.inputs := by simp [completeCommand]
@[simp] theorem completeCommand_freeCtr (r : Response) : (completeCommand r s).freeCtr = s.freeCtr := by simp [completeCommand]

@[simp] theorem takeResponse_params : (takeResponse s).params = s.params := by unfold takeResponse; split <;> rfl
@[simp] theorem takeResponse_status : (takeResponse s).status = s.status := by unfold takeResponse; split <;> rfl
@[simp] theorem takeResponse_queue : (takeResponse s).queue = if s.responseTransfers then s.queue.tail else s.queue := by unfold takeResponse; split <;> rfl
@[simp] theorem takeResponse_reqReady : (takeResponse s).reqReady = s.reqReady := by unfold takeResponse; split <;> rfl
@[simp] theorem takeResponse_rspValid : (takeResponse s).rspValid = s.rspValid := by unfold takeResponse; split <;> rfl
@[simp] theorem takeResponse_rspData : (takeResponse s).rspData = s.rspData := by unfold takeResponse; split <;> rfl
@[simp] theorem takeResponse_rspCode : (takeResponse s).rspCode = s.rspCode := by unfold takeResponse; split <;> rfl
@[simp] theorem takeResponse_resetDone : (takeResponse s).resetDone = s.resetDone := by unfold takeResponse; split <;> rfl
@[simp] theorem takeResponse_inputs : (takeResponse s).inputs = s.inputs := by unfold takeResponse; split <;> rfl
@[simp] theorem takeResponse_freeCtr : (takeResponse s).freeCtr = s.freeCtr := by unfold takeResponse; split <;> rfl

@[simp] theorem advanceCycle_params : (advanceCycle s).params = s.params := rfl
@[simp] theorem advanceCycle_status : (advanceCycle s).status = s.status := rfl
@[simp] theorem advanceCycle_queue : (advanceCycle s).queue = s.queue.map QEntry.tick := rfl
@[simp] theorem advanceCycle_reqReady : (advanceCycle s).reqReady = s.reqReady := rfl
@[simp] theorem advanceCycle_rspValid : (advanceCycle s).rspValid = s.rspValid := rfl
@[simp] theorem advanceCycle_rspData : (advanceCycle s).rspData = s.rspData := rfl
@[simp] theorem advanceCycle_rspCode : (advanceCycle s).rspCode = s.rspCode := rfl
@[simp] theorem advanceCycle_resetDone : (advanceCycle s).resetDone = s.resetDone := rfl
@[simp] theorem advanceCycle_inputs : (advanceCycle s).inputs = s.inputs.tail := rfl
@[simp] theorem advanceCycle_freeCtr : (advanceCycle s).freeCtr = s.freeCtr + 1 := rfl

@[simp] theorem driveOutputs_params : (driveOutputs s).params = s.params := by unfold driveOutputs; split <;> simp_all
@[simp] theorem driveOutputs_status : (driveOutputs s).status = s.status := by unfold driveOutputs; split <;> simp_all
@[simp] theorem driveOutputs_queue : (driveOutputs s).queue = s.queue := by unfold driveOutputs; split <;> simp_all
@[simp] theorem driveOutputs_reqReady : (driveOutputs s).reqReady = decide (s.queue.length < s.params.qdepth) := by unfold driveOutputs; split <;> simp_all
@[simp] theorem driveOutputs_rspValid : (driveOutputs s).rspValid = (presented s.params.lat s.queue).isSome := by unfold driveOutputs; split <;> simp_all
@[simp] theorem driveOutputs_rspData : (driveOutputs s).rspData = ((presented s.params.lat s.queue).map Response.data).getD (Config.freeRspData s.freeCtr) := by unfold driveOutputs; split <;> simp_all
@[simp] theorem driveOutputs_rspCode : (driveOutputs s).rspCode = ((presented s.params.lat s.queue).map Response.code).getD (Config.freeRspCode s.freeCtr) := by unfold driveOutputs; split <;> simp_all
@[simp] theorem driveOutputs_resetDone : (driveOutputs s).resetDone = s.resetDone := by unfold driveOutputs; split <;> simp_all
@[simp] theorem driveOutputs_inputs : (driveOutputs s).inputs = s.inputs := by unfold driveOutputs; split <;> simp_all
@[simp] theorem driveOutputs_freeCtr : (driveOutputs s).freeCtr = s.freeCtr := by unfold driveOutputs; split <;> simp_all

@[simp] theorem finishEdge_params : (finishEdge s).params = s.params := by simp [finishEdge]
@[simp] theorem finishEdge_status : (finishEdge s).status = s.status := by simp [finishEdge]
@[simp] theorem finishEdge_queue : (finishEdge s).queue = s.queue.map QEntry.tick := by simp [finishEdge]
@[simp] theorem finishEdge_reqReady : (finishEdge s).reqReady = decide (s.queue.length < s.params.qdepth) := by simp [finishEdge]
@[simp] theorem finishEdge_rspValid : (finishEdge s).rspValid = (presented s.params.lat (s.queue.map QEntry.tick)).isSome := by simp [finishEdge]
@[simp] theorem finishEdge_rspData : (finishEdge s).rspData = ((presented s.params.lat (s.queue.map QEntry.tick)).map Response.data).getD (Config.freeRspData (s.freeCtr + 1)) := by simp [finishEdge]
@[simp] theorem finishEdge_rspCode : (finishEdge s).rspCode = ((presented s.params.lat (s.queue.map QEntry.tick)).map Response.code).getD (Config.freeRspCode (s.freeCtr + 1)) := by simp [finishEdge]
@[simp] theorem finishEdge_resetDone : (finishEdge s).resetDone = s.resetDone := by simp [finishEdge]
@[simp] theorem finishEdge_inputs : (finishEdge s).inputs = s.inputs.tail := by simp [finishEdge]
@[simp] theorem finishEdge_freeCtr : (finishEdge s).freeCtr = s.freeCtr + 1 := by simp [finishEdge]

@[simp] theorem resetEdge_params : (resetEdge s).params = s.params := rfl
@[simp] theorem resetEdge_status : (resetEdge s).status = 0 := rfl
@[simp] theorem resetEdge_queue : (resetEdge s).queue = [] := rfl
@[simp] theorem resetEdge_reqReady : (resetEdge s).reqReady = false := rfl
@[simp] theorem resetEdge_rspValid : (resetEdge s).rspValid = false := rfl
@[simp] theorem resetEdge_rspData : (resetEdge s).rspData = Config.freeRspData (s.freeCtr + 1) := rfl
@[simp] theorem resetEdge_rspCode : (resetEdge s).rspCode = Config.freeRspCode (s.freeCtr + 1) := rfl
@[simp] theorem resetEdge_resetDone : (resetEdge s).resetDone = true := rfl
@[simp] theorem resetEdge_inputs : (resetEdge s).inputs = s.inputs.tail := rfl
@[simp] theorem resetEdge_freeCtr : (resetEdge s).freeCtr = s.freeCtr + 1 := rfl

@[simp] theorem placeRequest_params (w : ReqWord) : (placeRequest w s).params = s.params := rfl
@[simp] theorem placeRequest_status (w : ReqWord) : (placeRequest w s).status = s.status := rfl
@[simp] theorem placeRequest_queue (w : ReqWord) : (placeRequest w s).queue = s.queue := rfl
@[simp] theorem placeRequest_reqReady (w : ReqWord) : (placeRequest w s).reqReady = s.reqReady := rfl
@[simp] theorem placeRequest_rspValid (w : ReqWord) : (placeRequest w s).rspValid = s.rspValid := rfl
@[simp] theorem placeRequest_rspData (w : ReqWord) : (placeRequest w s).rspData = s.rspData := rfl
@[simp] theorem placeRequest_rspCode (w : ReqWord) : (placeRequest w s).rspCode = s.rspCode := rfl
@[simp] theorem placeRequest_resetDone (w : ReqWord) : (placeRequest w s).resetDone = true := rfl
@[simp] theorem placeRequest_freeCtr (w : ReqWord) : (placeRequest w s).freeCtr = s.freeCtr := rfl

@[simp] theorem placeRequest_pins (w : ReqWord) :
    (placeRequest w s).pins =
      { s.pins with rstN := true, reqValid := true, reqOp := reqOp w, reqA := reqA w, reqB := reqB w } := rfl

@[simp] theorem raiseErr_status_none : (raiseErr none s).status = s.status := rfl
@[simp] theorem raiseErr_status_some (e : Err) :
    (raiseErr (some e) s).status = (readStatus s ||| e.mask) &&& statusBits := rfl

/-- The response side of an edge leaves STATUS as software reads it. -/
@[simp] theorem readStatus_takeResponse : readStatus (takeResponse s) = readStatus s := by simp [readStatus]

end Sys2Proof.Machine
end

