-- ==== Sys2Proof/Laws/Table.lean ====
section
/-! SUPPORT. What every table of a block satisfies (rule R24), and the constants of the two configurations. -/

namespace Sys2Proof.Machine

@[simp] theorem width_pli8 : Cfg.pli8.width = 8 := rfl
@[simp] theorem width_pli16 : Cfg.pli16.width = 16 := rfl
@[simp] theorem samples_pli8 : Cfg.pli8.samples = 8 := rfl
@[simp] theorem samples_pli16 : Cfg.pli16.samples = 16 := rfl
@[simp] theorem shift_pli8 : Cfg.pli8.shift = 5 := by decide
@[simp] theorem shift_pli16 : Cfg.pli16.shift = 4 := by decide
@[simp] theorem satMax_pli8 : Cfg.pli8.satMax = 255 := rfl
@[simp] theorem satMax_pli16 : Cfg.pli16.satMax = 65535 := rfl

theorem samples_pos (c : Cfg) : 0 < c.samples := by cases c <;> decide

/-- A block's memory is in its canonical form in every state, and no operation writes it (rules R23, R24). -/
theorem memory_wf (p : Params) : Memory.wf p = true := p.lutOk

theorem check_passes (p : Params) (c : LutCheck) : c.passes p.cfg p.lut = true := by
  have h := p.lutOk
  simp only [lutWf, LutCheck.every, List.all_cons, List.all_nil, Bool.and_true, Bool.and_eq_true] at h
  obtain ⟨hl, hr, hz, hm, hs⟩ := h
  cases c <;> assumption

theorem lut_length (p : Params) : p.lut.length = p.cfg.samples + 1 := by
  simpa [LutCheck.passes] using check_passes p .len

theorem memRead_le_satMax (p : Params) (i : Nat) : memRead p i ≤ p.cfg.satMax := by
  have h := check_passes p .range
  simp only [LutCheck.passes, List.all_eq_true, decide_eq_true_eq] at h
  rcases Nat.lt_or_ge i p.lut.length with hi | hi
  · simpa [memRead, List.getD_eq_getElem?_getD, hi] using h _ (List.getElem_mem hi)
  · simp [memRead, List.getD_eq_getElem?_getD, hi]

theorem memRead_first (p : Params) : memRead p 0 = 0 := by
  have h := check_passes p .zero
  simp only [LutCheck.passes, decide_eq_true_eq] at h
  simp [memRead, List.getD_eq_getElem?_getD, h]

theorem memRead_last (p : Params) : memRead p p.cfg.samples = p.cfg.satMax := by
  have h := check_passes p .sent
  simp only [LutCheck.passes, decide_eq_true_eq] at h
  simp [memRead, List.getD_eq_getElem?_getD, h]

/-- Adjacent words of the table do not fall (rule R24 (d)). -/
theorem memRead_le_succ (p : Params) {i : Nat} (hi : i < p.cfg.samples) : memRead p i ≤ memRead p (i + 1) := by
  have h := check_passes p .mono
  simp only [LutCheck.passes, List.all_eq_true, List.mem_range, decide_eq_true_eq] at h
  exact h i hi

/-- The table does not fall from any index to any later one. -/
theorem memRead_mono (p : Params) {i j : Nat} (hij : i ≤ j) (hj : j ≤ p.cfg.samples) : memRead p i ≤ memRead p j := by
  induction j, hij using Nat.le_induction with
  | base => exact Nat.le_refl _
  | succ k _ ih => exact Nat.le_trans (ih (by omega)) (memRead_le_succ p (by omega))

end Sys2Proof.Machine
end

