-- ==== Sys2Proof/Laws/Ops.lean ====
section
/-! SUPPORT. What the shared operations and the step can do, once each. -/

namespace Sys2Proof.Machine

/-- Software reads STATUS through the mask of its existing bits, so a written word reads back masked. -/
theorem readStatus_writeStatus (v : Word) (s : State) : readStatus (writeStatus v s) = v &&& statusBits := by
  simp [readStatus, BitVec.and_assoc]

/-- Raising an error sets its bit in what software reads of STATUS. -/
theorem readStatus_setStatusBit (e : Err) (s : State) : readStatus (setStatusBit e s) = readStatus s ||| e.mask := by
  have h : ∀ x : Word, (x ||| e.mask) &&& statusBits = (x &&& statusBits) ||| e.mask := by
    intro x
    have he : e.mask &&& statusBits = e.mask := by cases e <;> decide
    ext i hi
    have := congrArg (fun y => y.getLsbD i) he
    simp only [BitVec.getLsbD_and] at this
    simp only [← BitVec.getLsbD_eq_getElem]
    cases ha : e.mask.getLsbD i <;> cases hb : statusBits.getLsbD i <;> simp_all
  rw [setStatusBit, readStatus_writeStatus, h, readStatus, BitVec.and_assoc, BitVec.and_self]

/-- Every command executes to a next state: it completes with one response, after no change of state but the STATUS
bits that `STATCLR` clears. -/
theorem exec_completes (i : Instr) (s : State) :
    ∃ r u, exec i s = .next (completeCommand r u) ∧
      (u = s ∨ ∃ mask b, i = .statclr mask b ∧ r = { data := readStatus s, err := none } ∧
        u = clearStatusBits (clearMask mask) s) := by
  cases i with
  | statclr mask b => exact ⟨_, _, rfl, .inr ⟨mask, b, rfl, rfl, rfl⟩⟩
  | _ => exact ⟨_, _, rfl, .inl rfl⟩

/-- What a step can do: reset, stop before the first reset, run the command on the pins, or only end the cycle. -/
theorem step_cases (s : State) :
    (s.pins.rstN = false ∧ step s = .next (resetEdge s)) ∨
    (s.pins.rstN = true ∧ s.resetDone = false ∧ step s = .fault .beforeReset) ∨
    (s.pins.rstN = true ∧ s.resetDone = true ∧ s.requestTransfers = true ∧
      ∃ t, exec (decode s.pins.request) (takeResponse s) = .next t ∧ step s = .next (finishEdge t)) ∨
    (s.pins.rstN = true ∧ s.resetDone = true ∧ s.requestTransfers = false ∧
      step s = .next (finishEdge (takeResponse s))) := by
  unfold step
  cases hr : s.pins.rstN
  · simp
  · cases hd : s.resetDone
    · simp
    · cases ht : s.requestTransfers
      · simp
      · obtain ⟨r, u, he, -⟩ := exec_completes (decode s.pins.request) (takeResponse s)
        simp [he]

end Sys2Proof.Machine
end

