-- ==== Sys2Proof/Laws/PerInstr.lean ====
section
/-! SUPPORT. Statements about every command as syntax, one lemma per constructor. -/

/-- The bits of a command's request word that the opcode table fixes are the command's opcode: `encode i` shifted down to
bit 64 is the row's match value there (rule R62). -/
def Sys2Proof.Laws.OpcodeField.Statement (i : Sys2Proof.Instr) : Prop :=
  Sys2Proof.reqOp (Sys2Proof.encode i) = i.opcode ∧ Sys2Proof.decodeFields i.opcode i.fieldB i.fieldA = i

namespace Sys2Proof.Laws.OpcodeField

open Sys2Proof

theorem apxp (t period : Word) : Statement (.apxp t period) := ⟨reqOp_packReq _ _ _, rfl⟩
theorem apxf (t period : Word) : Statement (.apxf t period) := ⟨reqOp_packReq _ _ _, rfl⟩
theorem lutrd (index b : Word) : Statement (.lutrd index b) := ⟨reqOp_packReq _ _ _, rfl⟩
theorem statrd (a b : Word) : Statement (.statrd a b) := ⟨reqOp_packReq _ _ _, rfl⟩
theorem statclr (mask b : Word) : Statement (.statclr mask b) := ⟨reqOp_packReq _ _ _, rfl⟩
theorem idrd (a b : Word) : Statement (.idrd a b) := ⟨reqOp_packReq _ _ _, rfl⟩
theorem reserved0 (a b : Word) : Statement (.reserved0 a b) := ⟨reqOp_packReq _ _ _, rfl⟩
theorem reserved7 (a b : Word) : Statement (.reserved7 a b) := ⟨reqOp_packReq _ _ _, rfl⟩
theorem reserved8 (a b : Word) : Statement (.reserved8 a b) := ⟨reqOp_packReq _ _ _, rfl⟩
theorem reserved9 (a b : Word) : Statement (.reserved9 a b) := ⟨reqOp_packReq _ _ _, rfl⟩
theorem reservedA (a b : Word) : Statement (.reservedA a b) := ⟨reqOp_packReq _ _ _, rfl⟩
theorem reservedB (a b : Word) : Statement (.reservedB a b) := ⟨reqOp_packReq _ _ _, rfl⟩
theorem reservedC (a b : Word) : Statement (.reservedC a b) := ⟨reqOp_packReq _ _ _, rfl⟩
theorem reservedD (a b : Word) : Statement (.reservedD a b) := ⟨reqOp_packReq _ _ _, rfl⟩
theorem reservedE (a b : Word) : Statement (.reservedE a b) := ⟨reqOp_packReq _ _ _, rfl⟩
theorem reservedF (a b : Word) : Statement (.reservedF a b) := ⟨reqOp_packReq _ _ _, rfl⟩

end Sys2Proof.Laws.OpcodeField
end

