-- ==== Sys2Proof/Tests/Slice0.lean ====
section
/-! SUPPORT. The model's own tests. Expected values come from spec/95_test_vectors.md and from the examples of the rules, but
for the witnesses at the end, which show states and operands that meet the hypotheses of the statements. -/

open Sys2Proof Sys2Proof.Machine

namespace Sys2Proof.Tests

/-- One step on the state after reset of `p`, with STATUS as given and a request word on the pins: the ports `rsp_data` and
`rsp_code` after it (`LAT = 1` in both test elaborations) and STATUS. -/
def oneCommand (p : Params) (status : Word) (req : Nat) : Option (Word × BitVec 3 × Word) :=
  match step (State.withFetchWord { State.resetOf p with status := status } 72 req) with
  | .next t => if t.rspValid then some (t.rspData, t.rspCode, t.status) else none
  | .fault _ => none
  | .refused _ => none

/-! ### The well-formedness checks refuse ill-formed terms -/

/-- R24: one ill-formed table for each check, and the check that refuses it. -/
theorem test_lut_len_refused : LutCheck.passes .pli8 [0, 3, 13, 33, 68, 118, 179, 255] .len = false := by decide
theorem test_lut_range_refused : LutCheck.passes .pli8 [0, 3, 13, 33, 68, 118, 179, 256, 255] .range = false := by decide
theorem test_lut_zero_refused : LutCheck.passes .pli8 [1, 3, 13, 33, 68, 118, 179, 232, 255] .zero = false := by decide
theorem test_lut_mono_refused : LutCheck.passes .pli8 [0, 37, 75, 112, 150, 187, 225, 6, 255] .mono = false := by decide
theorem test_lut_sent_refused : LutCheck.passes .pli8 [0, 3, 13, 33, 68, 118, 179, 232, 254] .sent = false := by decide
theorem test_elaborate_refuses_by_name :
    elaborate .pli8 [0, 37, 75, 112, 150, 187, 225, 6, 255] 1 1 = .error (.table .mono) ∧
    elaborate .pli8 [0, 3, 13, 33, 68, 118, 179, 232, 255] 0 1 = .error .latency ∧
    elaborate .pli8 [0, 3, 13, 33, 68, 118, 179, 232, 255] 1 0 = .error .depth := by decide

/-- R63: terms whose ignored fields are not 0 are well-formed and not canonical. -/
theorem test_noncanonical_refused :
    Instr.Canonical (.lutrd 5 1) = false ∧ Instr.Canonical (.statrd 1 0) = false ∧ Instr.Canonical (.statrd 0 1) = false ∧
    Instr.Canonical (.statclr 8 1) = false ∧ Instr.Canonical (.idrd 1 0) = false ∧ Instr.Canonical (.idrd 0 1) = false := by
  decide
theorem test_noncanonical_wellFormed : Instr.WellFormed (.lutrd 5 1) = true := by decide
/-- R67: operands that do not fit. -/
theorem test_asm_operand_refused :
    assemble .pli8 (.apxp (2 ^ 32) 1) = .error .operand ∧ assemble .pli8 (.req 16 0 0) = .error .operand := by decide

/-! ### Decoding: words written out bit by bit from R60 and R62 -/

theorem test_decode_apxp : decode 0b00010000000000000000000000010000000000000000000000000000000010000000 = .apxp 128 256 := by decide
theorem test_decode_apxf : decode 0b00100000000000000000000000000110010000000000000000000000000000100101 = .apxf 37 100 := by decide
theorem test_decode_lutrd : decode 0b00111111111111111111111111111111111100000000000000000000000000000101 = .lutrd 5 0xFFFFFFFF := by decide
theorem test_decode_statrd : decode 0b01000000000000000000000000000000000000000000000000000000000000000000 = .statrd 0 0 := by decide
theorem test_decode_statclr : decode 0b01010000000000000000000000000000000000000000000000000000000000001000 = .statclr 8 0 := by decide
theorem test_decode_idrd : decode 0x6_12345678_9ABCDEF0 = .idrd 0x9ABCDEF0 0x12345678 := by decide
theorem test_decode_reserved_low :
    decode 0x0_00000000_00000000 = .reserved0 0 0 ∧ decode 0x7_00000002_00000001 = .reserved7 1 2 ∧
    decode 0x8_00000100_00000080 = .reserved8 128 256 ∧ decode 0x9_00000002_00000001 = .reserved9 1 2 ∧
    decode 0xA_00000002_00000001 = .reservedA 1 2 := by decide
theorem test_decode_reserved_high :
    decode 0xB_00000002_00000001 = .reservedB 1 2 ∧ decode 0xC_00000002_00000001 = .reservedC 1 2 ∧
    decode 0xD_00000002_00000001 = .reservedD 1 2 ∧ decode 0xE_00000002_00000001 = .reservedE 1 2 ∧
    decode 0xF_FFFFFFFF_FFFFFFFF = .reservedF 0xFFFFFFFF 0xFFFFFFFF := by decide
theorem test_decode_table_word : decodeTableWord 72 0x1_00000100_00000080 = some (.apxp 128 256) := by decide
theorem test_decode_refuses_wider_numbers : decodeTableWord 72 0x10_00000000_00000000 = none := by decide

/-! ### Commands: spec/95_test_vectors.md section 2 -/

/-- 2.1 P28: `OVR` with dx = 2; 2.1 P40: the widest operands, r = dx + 1. -/
theorem test_apxp_overshoot : oneCommand Params.sample 0 0x1_00000015_00000012 = some (2, 5, 0x10) := by decide
theorem test_apxp_widest : oneCommand Params.sample 0 0x1_FFFFFFFF_7FFFFFFF = some (68, 0, 0) := by decide
/-- 2.1 P18, `DIVZ` at the largest such period; 2.3 P3. -/
theorem test_apxp_divz : oneCommand Params.sample 0x04 0x1_00000007_00000000 = some (0, 4, 0x0C) := by decide
theorem test_apxp_pli16 : oneCommand Params.test16 0 0x1_000003E8_00000212 = some (34749, 0, 0) := by decide
/-- 2.2 F34 and F9: `PZERO` with t = 2^32 - 1; 2.4 F16. -/
theorem test_apxf_last_segment : oneCommand Params.sample 0 0x2_00000064_00000062 = some (250, 0, 0) := by decide
theorem test_apxf_pzero : oneCommand Params.sample 0 0x2_00000000_FFFFFFFF = some (255, 3, 0x04) := by decide
theorem test_apxf_pli16_widest : oneCommand Params.test16 0 0x2_FFFFFFFF_7FFFFFFF = some (32512, 0, 0) := by decide
/-- 2.5. -/
theorem test_lutrd_ignores_b : oneCommand Params.sample 0 0x3_FFFFFFFF_00000005 = some (118, 0, 0) := by decide
theorem test_lutrd_idx : oneCommand Params.sample 0x10 0x3_00000000_00000009 = some (0, 2, 0x12) := by decide
/-- 2.6. -/
theorem test_statrd : oneCommand Params.sample 0x1F 0x4_00000000_00000000 = some (0x1F, 0, 0x1F) := by decide
theorem test_statclr_mask : oneCommand Params.sample 0x09 0x5_00000000_00000008 = some (0x09, 0, 0x01) := by decide
theorem test_statclr_high_bits_ignored : oneCommand Params.sample 0x1F 0x5_00000000_FFFFFFE0 = some (0x1F, 0, 0x1F) := by decide
/-- 2.7. -/
theorem test_idrd_pli8 : oneCommand Params.sample 0x1F 0x6_12345678_9ABCDEF0 = some (0x01050808, 0, 0x1F) := by decide
theorem test_idrd_pli16 : oneCommand Params.test16 0 0x6_00000000_00000000 = some (0x01041010, 0, 0) := by decide
/-- 2.8. -/
theorem test_reserved_low_rows :
    oneCommand Params.sample 0x08 0x0_00000000_00000000 = some (0, 1, 0x09) ∧
    oneCommand Params.sample 0 0x7_00000000_00000000 = some (0, 1, 0x01) ∧
    oneCommand Params.sample 0 0x8_00000100_00000080 = some (0, 1, 0x01) ∧
    oneCommand Params.sample 0x01 0x9_00000000_00000000 = some (0, 1, 0x01) ∧
    oneCommand Params.sample 0 0xA_00000000_00000000 = some (0, 1, 0x01) := by decide
theorem test_reserved_high_rows :
    oneCommand Params.sample 0 0xB_00000000_00000000 = some (0, 1, 0x01) ∧
    oneCommand Params.sample 0 0xC_00000000_00000000 = some (0, 1, 0x01) ∧
    oneCommand Params.sample 0 0xD_00000000_00000000 = some (0, 1, 0x01) ∧
    oneCommand Params.sample 0 0xE_00000000_00000000 = some (0, 1, 0x01) ∧
    oneCommand Params.sample 0 0xF_FFFFFFFF_FFFFFFFF = some (0, 1, 0x01) := by decide
/-- R64: the packed response of 2.1 P25, `5_0000001D`. -/
theorem test_response_pack : Response.pack { data := 29, err := some .ovr } = 0x5_0000001D := by decide

/-! ### The generator and the assembler -/

/-- 5.3: the spec's illustrative curve `300*t/p`, period 8: 262 wraps to 6. -/
theorem test_generate_wraps_above :
    generate (fun t p => ((F64.ofInt 300).mul t).div p) 8 8 8 = .ok [0, 37, 75, 112, 150, 187, 225, 6, 255] := by decide
/-- 5.3: the spec's illustrative curve `32*t/p - 1.5`, period 8: -1 wraps to 255. -/
theorem test_generate_wraps_below :
    generate (fun t p => (((F64.ofInt 32).mul t).div p).sub (F64.ofRatio false 3 2)) 8 8 8 =
      .ok [255, 2, 6, 10, 14, 18, 22, 26, 255] := by decide

/-- The curve of R123 with the values nearest to `exp` and `sin`. -/
def nearestCurve8 : Curve := curve8 F64.seriesExp F64.seriesSin

/-- 5.1: the curve of R123 gives the source's table at each of the six periods of R123. -/
theorem test_generate_curve8_short :
    [8, 100, 256].all (fun p => decide (generate nearestCurve8 p 8 8 = .ok [0, 3, 13, 33, 68, 118, 179, 232, 255])) = true := by
  decide +kernel
theorem test_generate_curve8_long :
    [1000, 4096, 65535].all (fun p => decide (generate nearestCurve8 p 8 8 = .ok [0, 3, 13, 33, 68, 118, 179, 232, 255])) =
      true := by decide +kernel
/-- 5.2: the samples before truncation, to the last bit, at k = 0, 3 and 7, and the value at the end of the period. -/
theorem test_curve8_samples :
    nearestCurve8 (F64.ofInt 0) (F64.ofInt 256) = F64.ofRatio false 12651577185884832 (10 ^ 23) ∧
    nearestCurve8 (F64.ofInt 96) (F64.ofInt 256) = F64.ofRatio false 33928128001858 (10 ^ 12) ∧
    nearestCurve8 (F64.ofInt 224) (F64.ofInt 256) = F64.ofRatio false 2323257909919543 (10 ^ 13) ∧
    nearestCurve8 (F64.ofInt 256) (F64.ofInt 256) = F64.ofRatio false 2538434579535769 (10 ^ 13) := by decide +kernel
/-- R127: the declaration of the source's table: nine 8-bit elements in decimal, in ascending index order. -/
theorem test_array_declaration :
    arrayDecl .pli8 [0, 3, 13, 33, 68, 118, 179, 232, 255] =
      { elementBits := 8, length := 9,
        elements := ["0", "3", "13", "33", "68", "118", "179", "232", "255"].map String.toList } := by decide
/-- R126 and R127: a table that fails a check is emitted all the same, with the check named. -/
theorem test_generator_emits_and_reports :
    (match runGenerator (fun t p => ((F64.ofInt 300).mul t).div p) 8 8 8 with
      | .ok (d, report) => some (d.elements.getD 7 [], report)
      | .error _ => none) = some (['6'], [.mono]) := by decide
/-- R128: a value further off than a few units in the last place is not taken; one within them is. -/
theorem test_held_to :
    F64.heldTo (.fin false (2 ^ 52) 0) (.fin false (2 ^ 52 + 4) 0) = .fin false (2 ^ 52 + 4) 0 ∧
    F64.heldTo (.fin false (2 ^ 52) 0) (.fin false (2 ^ 52 + 5) 0) = .fin false (2 ^ 52) 0 ∧
    F64.heldTo (.fin false (2 ^ 52) 0) .nan = .fin false (2 ^ 52) 0 := by decide
/-- 5.3: refusals; R125: a sample that is not finite. -/
theorem test_generate_refusals :
    generate (fun t _ => t) 0 8 8 = .error .period ∧ generate (fun t _ => t) 8 12 8 = .error .sampleCount ∧
    generate (fun t _ => t) 8 8 16 = .error .pairing ∧ generate (fun t _ => t.div (F64.ofInt 0)) 8 8 8 = .error .nonFinite := by
  decide
/-- R126: the report names the checks that a wrapped table fails. -/
theorem test_generator_report : generatorReport .pli8 [255, 2, 6, 10, 14, 18, 22, 26, 255] = [.zero, .mono] := by decide
/-- binary64 of 0.1 is 0x1.999999999999ap-4 and pi is 0x1.921fb54442d18p+1. -/
theorem test_binary64_tenth : F64.ofRatio false 1 10 = .fin false 0x1999999999999A (-56) := by decide
theorem test_binary64_pi : piF64 = .fin false 0x1921FB54442D18 (-51) := by decide
/-- Section 3.1, line 8, and R67. -/
theorem test_assemble_apx :
    assembleText .pli8 "apx 256, 256 ; pseudo: expands to apxf" = .ok [0x2_00000100_00000100] := by decide
theorem test_assemble_req : assembleText .pli8 ".req 0x3, 0xFFFFFFFF, 5" = .ok [0x3_FFFFFFFF_00000005] := by decide
theorem test_assemble_refusals :
    assembleText .pli8 "APXP 1, 2" = .error .mnemonic ∧ assembleText .pli8 "apxp 1" = .error .operandCount ∧
    assembleText .pli8 "lutrd 0xG" = .error .number ∧ assembleText .pli8 "lutrd 4294967296" = .error .operand := by decide
theorem test_listing : listing 0x1_FFFFFFFF_7FFFFFFF = "1_FFFFFFFF_7FFFFFFF".toList := by decide

/-! ### Reset and the channels -/

/-- R32, R35: `req_ready` is 0 right after reset, so a request on the pins of the first edge does not transfer; it is 1 after
that edge. -/
theorem test_first_edge_after_reset_accepts_nothing :
    (match step { State.reset with inputs := [{ Pins.idle with reqValid := true, reqOp := 4 }] } with
      | .next t => some (t.reqReady, t.rspValid, t.queue)
      | .fault _ => none
      | .refused _ => none) = some (true, false, []) := by decide

/-! ### Witnesses: concrete states and operands that meet the hypotheses of each statement -/

/-- A host that holds a `STATRD` request and takes responses. -/
def asking : Pins := { Pins.idle with reqValid := true, reqOp := 4, rspReady := true }

/-- A block with room, `req_ready = 1` and a `STATRD` request on the pins. -/
def readyState : State := { State.reset with reqReady := true, inputs := [asking, Pins.idle] }

/-- A full block that presents its response. -/
def fullState : State :=
  { State.reset with queue := [{ rsp := { data := 7, err := none }, age := 1 }], rspValid := true, rspData := 7 }

/-- A block before its first reset. -/
def unresetState : State := { State.reset with resetDone := false }

/-- A block with `LAT = 2`. -/
def slowParams : Params := { Params.sample with lat := 2, latPos := by decide }

theorem readyState_inv : Inv readyState where
  depth := by decide
  ready := by decide
  valid := by decide
  held := by simp [readyState, State.reset, State.resetOf, presented]
  ages := List.Pairwise.nil
  aged := by simp [readyState, State.reset, State.resetOf]
  reserved := by decide

theorem fullState_inv : Inv fullState where
  depth := by decide
  ready := by decide
  valid := by decide
  held := by
    intro r h
    have : r = { data := 7, err := none } := by simpa [fullState, State.reset, State.resetOf, presented, Params.sample] using h.symm
    subst this; decide
  ages := by simp [fullState]
  aged := by simp [fullState]
  reserved := by decide

theorem witness_ResetEdgeAppliesResetValues : { State.reset with inputs := [{ Pins.idle with rstN := false }] }.pins.rstN = false := rfl
theorem witness_BootReachesRequestReady :
    { unresetState with inputs := [{ Pins.idle with rstN := false }, Pins.idle] }.inputs =
      { Pins.idle with rstN := false } :: Pins.idle :: [] ∧ Pins.idle.rstN = true := ⟨rfl, rfl⟩
theorem witness_NoStepBeforeReset :
    unresetState.resetDone = false ∧ unresetState.pins.rstN = true ∧
    { unresetState with inputs := [{ Pins.idle with rstN := false }] }.pins.rstN = false := by decide
theorem witness_StepRunsTheDecodedCommand :
    readyState.resetDone = true ∧ readyState.pins.rstN = true ∧ readyState.requestTransfers = true ∧
    State.reset.requestTransfers = false := by decide
theorem witness_FetchWordRunsAtTheNextStep : 68 ≤ 72 ∧ 0x4_00000000_00000000 < 2 ^ 68 := by decide
theorem witness_EveryStepAnswersAfterReset : readyState.resetDone = true := rfl
theorem witness_IdleBlockKeepsItsState :
    State.reset.resetDone = true ∧ State.reset.pins.rstN = true ∧ State.reset.pins.reqValid = false ∧
    State.reset.queue = [] := by decide
theorem witness_DecodeAndEncodeAgree : (Instr.apxp 128 256).WellFormed = true := rfl
theorem witness_TimesPastTheEndGiveMax : 1 ≤ (256 : Word).toNat ∧ (256 : Word).toNat ≤ (255 : Word).toNat + 1 := by decide
theorem witness_EdgeRuleReadsNoTableWord :
    Params.sample.cfg = { Params.sample with lut := [0, 0, 0, 0, 0, 0, 0, 0, 255], lutOk := by decide }.cfg ∧
    (1 : Word).toNat ≤ (0 : Word).toNat + 1 := by decide
/-- For the statements about `t + 1 < period`: SegmentIndexInRange, ApxfStaysInItsSegment,
BothVariantsSelectTheSameSegment, IntermediatesFitTheirWidths. -/
theorem witness_noEdge : 0 + 1 < 2 ∧ (0xFFFFFFFD : Word).toNat + 1 < (0xFFFFFFFF : Word).toNat := by decide
theorem witness_ApxpBounds :
    3 + 1 < 8 ∧ 0 < apxpWidth Params.sample.cfg 8 ∧ Params.sample.cfg.samples ∣ 8 ∧ 1 + 1 < 9 ∧
    0 < apxpWidth Params.sample.cfg 9 := by decide
theorem witness_VariantsAgreeOnPowerOfTwoPeriods :
    (0 : Word).toNat = 0 ∧ (1 : Word).toNat = 1 ∧
    (8 : Word).toNat = Params.sample.cfg.samples * 2 ^ 0 ∧
    Params.sample.cfg.shift ≤ Params.sample.cfg.shift ∧
    (256 : Word).toNat = Params.sample.cfg.samples * 2 ^ Params.sample.cfg.shift := by decide
theorem witness_ApxfIsMonotonic : 1 ≤ (1 : Word).toNat ∧ (0 : Word).toNat ≤ (0xFFFFFFFF : Word).toNat := by decide
theorem witness_BoundaryAndLeadingAnchor :
    1 ≤ (1 : Word).toNat ∧ 2 ≤ (2 : Word).toNat ∧ Params.sample.cfg.samples ≤ (8 : Word).toNat ∧
    (7 : Word).toNat ≤ Params.sample.cfg.samples - 1 ∧ (3 : Word).toNat + 1 < (8 : Word).toNat ∧
    (3 : Word).toNat = apxpStart Params.sample.cfg (3 : Word).toNat (8 : Word).toNat := by decide
theorem witness_ErrorFreeBrightnessIsExact :
    ErrorFree (apxpResult Params.sample 128 256) ∧ ErrorFree (apxpResult Params.sample 255 256) ∧
    ErrorFree (apxfResult Params.sample 1 4) := by unfold ErrorFree; decide
/-- For CommandFrame, RaisedErrorSetsItsStatusBitAlone, CodesNumberTheirStatusBits, ErrorCauses: commands that raise
nothing, that raise each error, and `STATCLR`. -/
theorem witness_execAnswers :
    (∃ t, exec (.statrd 0 0) readyState = .next t) ∧ (∃ t, exec (.statclr 8 0) readyState = .next t) ∧
    (apxpResult readyState.params 0 0).err = some .pzero ∧ (apxpResult readyState.params 0 7).err = some .divz ∧
    (apxpResult readyState.params 11 13).err = some .ovr ∧ (lutrdResult readyState.params 9).err = some .idx ∧
    (lutrdResult readyState.params 8).err = none := ⟨⟨_, rfl⟩, ⟨_, rfl⟩, by decide⟩
/-- A `STATCLR` whose mask spares bit 0, with that bit set. -/
theorem witness_StatusBitsAreSticky :
    (∃ t, step { readyState with status := 1, inputs := [{ asking with reqOp := 5, reqA := 8 }] } = .next t) ∧
    statusBit { readyState with status := 1 } 0 = true ∧
    commandAt { readyState with status := 1, inputs := [{ asking with reqOp := 5, reqA := 8 }] } = some (.statclr 8 0) ∧
    (8 : Word).getLsbD 0 = false := ⟨⟨_, rfl⟩, by decide⟩
theorem witness_PureCommandsIgnoreHistory :
    readyState.params = fullState.params ∧ readyState ≠ fullState ∧
    (∃ t, exec (.apxp 1 9) readyState = .next t) ∧ ∃ t, exec (.apxp 1 9) fullState = .next t :=
  ⟨rfl, by decide, ⟨_, rfl⟩, ⟨_, rfl⟩⟩
theorem witness_TableNeverChanges : ∃ t, runEdges 2 readyState = some t := ⟨_, rfl⟩
theorem witness_ElaborationAcceptsExactlyWellFormedTables :
    elaborate .pli8 Params.sample.lut 1 1 = .ok Params.sample ∧
    elaborate .pli8 [] 1 1 = .error (.table .len) := by decide
theorem witness_EveryStepKeepsTheInvariant :
    (readyState.resetDone = true → Inv readyState) ∧ ∃ t, step readyState = .next t := ⟨fun _ => readyState_inv, _, rfl⟩
theorem witness_OutputsAfterAnEdge : ∃ t, step readyState = .next t ∧ t.rspValid = true ∧ t.reqReady = false := ⟨_, rfl, by decide⟩
theorem witness_EdgeMovesTheQueue :
    readyState.resetDone = true ∧ readyState.pins.rstN = true ∧ readyState.requestTransfers = true ∧
    State.reset.requestTransfers = false ∧ { fullState with inputs := [asking] }.responseTransfers = true := by decide
theorem witness_ResponseIsHeldUntilItTransfers :
    Inv fullState ∧ fullState.resetDone = true ∧ fullState.rspValid = true ∧ fullState.pins.rstN = true ∧
    fullState.pins.rspReady = false := ⟨fullState_inv, by decide⟩
theorem witness_ClockedBlockRefinesTheCommandStream :
    Inv readyState ∧ readyState.resetDone = true ∧ ResetFree 3 readyState ∧
    (∃ t, runEdges 3 readyState = some t) ∧ commandsIn 3 readyState = [.statrd 0 0] :=
  ⟨readyState_inv, rfl, by unfold ResetFree; decide, ⟨_, rfl⟩, by decide⟩
theorem witness_ResponseIsValidAfterExactlyLatCycles :
    readyState.resetDone = true ∧ readyState.queue = [] ∧ readyState.requestTransfers = true ∧ ResetFree 1 readyState ∧
    1 ≤ readyState.params.lat ∧ { readyState with params := slowParams }.requestTransfers = true ∧ 1 < slowParams.lat := by
  unfold ResetFree; decide
theorem witness_HeldRequestIsTheOneAccepted :
    HostHoldsRequest { State.reset with inputs := [asking, asking] } ∧
    { State.reset with inputs := [asking, asking] }.pins.reqValid = true ∧ State.reset.reqReady = false := by
  unfold HostHoldsRequest; decide
theorem witness_BackpressureHoldsTheBlock :
    Inv fullState ∧ fullState.resetDone = true ∧ fullState.queue.length = fullState.params.qdepth ∧
    (∀ p ∈ fullState.inputs.take 3, p.rstN = true ∧ p.rspReady = false) ∧ fullState.rspValid = true ∧
    Inv { fullState with inputs := [asking] } ∧ { fullState with inputs := [asking] }.pins.rspReady = true :=
  ⟨fullState_inv, by decide, by decide, by decide, by decide,
    ⟨fullState_inv.depth, fullState_inv.ready, fullState_inv.valid, fullState_inv.held, fullState_inv.ages,
      fullState_inv.aged, fullState_inv.reserved⟩, by decide⟩
theorem witness_GeneratorRefusesBadInputs :
    ((0 : Int) ≤ 0) ∧ (8, 16) ≠ (8, 8) ∧ (8, 16) ≠ (16, 16) ∧ isPowerOfTwo 12 = false := by decide
/-- A curve for GeneratorConvertsAndAppendsTheSentinel and GeneratedTablePassesItsChecks: `240*t/p`. -/
theorem witness_generated :
    generate (fun t p => ((F64.ofInt 240).mul t).div p) 8 Cfg.pli8.samples Cfg.pli8.width =
      .ok [0, 30, 60, 90, 120, 150, 180, 210, 255] ∧ (0 : Int) < 8 ∧
    (((F64.ofInt 240).mul (sampleOffset 8 8 0)).div (F64.ofInt 8)).trunc = some 0 ∧
    (∀ k, k < Cfg.pli8.samples → (((F64.ofInt 240).mul (sampleOffset 8 8 k)).div (F64.ofInt 8)).trunc ≠ none) ∧
    ((sampleOffset 8 8 1).div (F64.ofInt 0)).trunc = none := by decide
/-- Zero, both sides of the overflow threshold, a tie, a number of the format, and a tie of the least subnormal with zero. -/
theorem witness_RoundingIsToNearestEven :
    0 < 1 ∧ F64.ofRatio true 0 1 = .fin true 0 (-1074) ∧
    F64.ofRatio false ((2 ^ 54 - 1) * 2 ^ 970 - 1) 1 = .fin false (2 ^ 53 - 1) 971 ∧
    F64.ofRatio false ((2 ^ 54 - 1) * 2 ^ 970) 1 = .inf false ∧
    F64.ofRatio false (2 ^ 53 + 1) 1 = .fin false (2 ^ 52) 1 ∧ F64.ofRatio false (2 ^ 53 - 1) 1 = .fin false (2 ^ 53 - 1) 0 ∧
    F64.ofRatio false 1 (2 ^ 1075) = .fin false 0 (-1074) := by decide +kernel
theorem witness_ReferenceCurveGivesTheSourceTable :
    LibraryWithin 1000 libraryExp librarySin ∧ (0 : Int) < 256 ∧ (256 : Int) < 2 ^ 32 :=
  ⟨libraryWithin_mono (by decide) library_within, by decide, by decide⟩
theorem witness_AssemblerEncodesEachLine :
    4294967295 < 2 ^ 32 ∧ 15 < 2 ^ 4 ∧ 2 ^ 32 ≤ 4294967296 ∧ 2 ^ 4 ≤ 16 := by decide
theorem witness_AssembledCommandsAreCanonical :
    assemble .pli8 (.lutrd 5) = .ok [0x3_00000000_00000005] ∧ ∀ op b a, AsmLine.lutrd 5 ≠ .req op b a :=
  ⟨by decide, by intro op b a h; cases h⟩

end Sys2Proof.Tests
end

