-- ==== Sys2Proof/Proofs/Configurations.lean ====
section
/-! The two configurations and their constants (rules R2 to R4). -/

namespace Sys2Proof.Machine

/-- Only the two pairings of rule R2 are accepted, and an accepted pair is the pair of its configuration. -/
theorem samples_width_of_ofPair {n w : Nat} {c : Cfg} (h : Cfg.ofPair n w = some c) :
    c.samples = n ∧ c.width = w := by
  unfold Cfg.ofPair at h
  split at h
  case isTrue h8 =>
    obtain ⟨rfl, rfl⟩ := h8
    cases h
    exact ⟨samples_pli8, width_pli8⟩
  case isFalse =>
    split at h
    case isTrue h16 =>
      obtain ⟨rfl, rfl⟩ := h16
      cases h
      exact ⟨samples_pli16, width_pli16⟩
    case isFalse => cases h

/-- What `Cfg.ofPair` answers, said once: it inverts the pair of sample count and width (rules R2, R122 (c)). -/
theorem ofPair_eq_some_iff {n w : Nat} {c : Cfg} :
    Cfg.ofPair n w = some c ↔ c.samples = n ∧ c.width = w := by
  constructor
  · exact samples_width_of_ofPair
  · rintro ⟨rfl, rfl⟩
    exact ofPair_of_cfg c

/-- The `N` segments of `2^S` parts each make up the 256 parts that `APXF` divides a period into (rule R3). -/
theorem samples_mul_two_pow_shift (c : Cfg) : c.samples * 2 ^ c.shift = 256 := by
  cases c
  case pli8 => simp [samples_pli8, shift_pli8]
  case pli16 => simp [samples_pli16, shift_pli16]

/-- Settles O43, from the constants of each configuration, the definitions of S and MAX, and the pairing as an inverse. -/
theorem configurationConstants : Obligations.ConfigurationConstants := by
  unfold Obligations.ConfigurationConstants
  exact ⟨width_pli8, samples_pli8, shift_pli8, satMax_pli8,
    width_pli16, samples_pli16, shift_pli16, satMax_pli16,
    fun c => ⟨samples_mul_two_pow_shift c, rfl, rfl⟩,
    fun _ _ _ => ofPair_eq_some_iff⟩

end Sys2Proof.Machine
end

