-- ==== Sys2Proof/Proofs/StatusErrors.lean ====
section
/-! STATUS after a command, bit by bit, and the commands that can only raise (rules R26, R27). -/

namespace Sys2Proof.Machine

/-- An error's mask holds the one bit of that error (rule R26). -/
theorem getLsbD_errMask (e : Err) (j : Nat) : e.mask.getLsbD j = decide (j = e.bit) := by
  have hbit : e.bit < 32 := by cases e <;> decide
  rw [Err.mask, ← BitVec.twoPow_eq, BitVec.getLsbD_twoPow]
  simp [hbit, eq_comm]

/-- Raising an error sets its own bit and keeps every other (rule R27). -/
theorem statusBit_setStatusBit (e : Err) (s : State) (j : Nat) :
    statusBit (setStatusBit e s) j = (decide (j = e.bit) || statusBit s j) := by
  rw [statusBit, readStatus_setStatusBit, BitVec.getLsbD_or, getLsbD_errMask, Bool.or_comm, statusBit]

/-- A command that completes with an error sets that error's bit and keeps every other (rule R27): the response that joins
`Q` does not touch STATUS. -/
theorem statusBit_completeCommand_of_err {r : Response} {e : Err} (he : r.err = some e) (s : State) (j : Nat) :
    statusBit (completeCommand r s) j = (decide (j = e.bit) || statusBit s j) := by
  rw [completeCommand, he]
  exact statusBit_setStatusBit e s j

/-- A command that completes without an error leaves STATUS as it finds it (rule R27). -/
theorem completeCommand_status_of_ok {r : Response} (hr : r.err = none) (s : State) :
    (completeCommand r s).status = s.status := by
  simp [hr]

/-- What `STATCLR` does: it clears, then answers the old STATUS without an error (rule R104). -/
theorem exec_statclr (mask b : Word) (s : State) :
    exec (.statclr mask b) s =
      .next (completeCommand { data := readStatus s, err := none } (clearStatusBits (clearMask mask) s)) := rfl

/-- Every command but `STATCLR` only completes with a response, on the state it finds. -/
theorem exec_of_ne_statclr {i : Instr} (hi : ∀ mask b, i ≠ .statclr mask b) (s : State) :
    ∃ r, exec i s = .next (completeCommand r s) := by
  obtain ⟨r, u, hexec, rfl | ⟨mask, b, rfl, -, -⟩⟩ := exec_completes i s
  · exact ⟨r, hexec⟩
  · exact absurd rfl (hi mask b)

/-- Settles O36: `STATCLR` raises nothing, and every other command ends in `completeCommand` on the state it finds. -/
theorem raisedErrorSetsItsStatusBitAlone : Obligations.RaisedErrorSetsItsStatusBitAlone := by
  unfold Obligations.RaisedErrorSetsItsStatusBitAlone
  intro i s t hexec
  by_cases hi : ∃ mask b, i = .statclr mask b
  case pos =>
    obtain ⟨mask, b, rfl⟩ := hi
    rw [exec_statclr] at hexec
    cases hexec
    refine ⟨{ data := readStatus s, err := none }, by simp, ?_, ?_, fun _ _ _ => rfl⟩
    · intro e he
      cases he
    · intro _ hne
      exact absurd rfl (hne mask b)
  case neg =>
    have hne : ∀ mask b, i ≠ .statclr mask b := fun mask b h => hi ⟨mask, b, h⟩
    obtain ⟨r, hr⟩ := exec_of_ne_statclr hne s
    rw [hr] at hexec
    cases hexec
    exact ⟨r, completeCommand_queue s r, fun _ he => statusBit_completeCommand_of_err he s,
      fun hok _ => completeCommand_status_of_ok hok s, fun mask b h => absurd h (hne mask b)⟩

end Sys2Proof.Machine
end

