-- ==== Sys2Proof/Proofs/FixedParams.lean ====
section
/-! No command, no edge and no run of edges changes a parameter of the block, the table among them (rule R23). -/

namespace Sys2Proof.Machine

/-- No command writes a parameter. -/
theorem exec_keeps_params {i : Instr} {s t : State} (h : exec i s = .next t) : t.params = s.params := by
  obtain ⟨r, u, hexec, hu⟩ := exec_completes i s
  rw [hexec] at h
  cases h
  obtain rfl | ⟨mask, b, -, -, rfl⟩ := hu <;> simp

/-- No edge writes a parameter, a reset edge included. -/
theorem step_keeps_params {s t : State} (h : step s = .next t) : t.params = s.params := by
  obtain ⟨-, hstep⟩ | ⟨-, -, hstep⟩ | ⟨-, -, -, u, hexec, hstep⟩ | ⟨-, -, -, hstep⟩ := step_cases s <;>
    rw [hstep] at h <;> cases h
  case inl => exact resetEdge_params s
  case inr.inr.inl =>
    calc (finishEdge u).params = u.params := finishEdge_params u
      _ = (takeResponse s).params := exec_keeps_params hexec
      _ = s.params := takeResponse_params s
  case inr.inr.inr => rw [finishEdge_params, takeResponse_params]

/-- A run of one more edge that does not stop is an edge to a next state and a run from there. -/
theorem runEdges_succ_eq_some {k : Nat} {s t : State} (h : runEdges (k + 1) s = some t) :
    ∃ u, step s = .next u ∧ runEdges k u = some t := by
  unfold runEdges at h
  split at h
  case h_1 u hstep => exact ⟨u, hstep, h⟩
  case h_2 => cases h
  case h_3 => cases h

/-- No number of edges writes a parameter. -/
theorem runEdges_keeps_params {k : Nat} {s t : State} (h : runEdges k s = some t) : t.params = s.params := by
  induction k generalizing s with
  | zero =>
    cases h
    rfl
  | succ k ih =>
    obtain ⟨u, hstep, hrun⟩ := runEdges_succ_eq_some h
    rw [ih hrun, step_keeps_params hstep]

/-- Settles O41, by induction on the number of edges; the parameters carry the proof that their table is well-formed. -/
theorem tableNeverChanges : Obligations.TableNeverChanges := by
  unfold Obligations.TableNeverChanges
  intro k s t hrun
  have hparams := runEdges_keeps_params hrun
  exact ⟨hparams, congrArg Params.lut hparams, memory_wf t.params⟩

end Sys2Proof.Machine
end

