-- ==== Sys2Proof/Proofs/Elaboration.lean ====
section
/-! Which parameters elaboration accepts, and what its refusal of a table names (rules R7, R24). -/

namespace Sys2Proof.Machine

/-- In a table of N + 1 entries the check `mono` compares the entries that are there, so its default value plays no part. -/
theorem passes_mono_iff {c : Cfg} {lut : List Nat} (hlen : lut.length = c.samples + 1) :
    LutCheck.passes c lut .mono = true ↔
      ∀ i x y, i < c.samples → lut[i]? = some x → lut[i + 1]? = some y → x ≤ y := by
  simp only [LutCheck.passes, List.all_eq_true, List.mem_range, decide_eq_true_eq, List.getD_eq_getElem?_getD]
  constructor
  · intro h i x y hi hx hy
    simpa [hx, hy] using h i hi
  · intro h i hi
    have hx : lut[i]? = some lut[i] := List.getElem?_eq_getElem (by omega)
    have hy : lut[i + 1]? = some lut[i + 1] := List.getElem?_eq_getElem (by omega)
    simpa [hx, hy] using h i _ _ hi hx hy

/-- `LUT_WF` is its five checks. -/
theorem lutWf_iff_passes {c : Cfg} {lut : List Nat} : lutWf c lut = true ↔ ∀ k, LutCheck.passes c lut k = true := by
  simp only [lutWf, List.all_eq_true]
  exact ⟨fun h k => h k (by cases k <;> decide), fun h k _ => h k⟩

/-- `LUT_WF` in the words of rule R24 (a) to (e). -/
theorem lutWf_iff {c : Cfg} {lut : List Nat} :
    lutWf c lut = true ↔
      lut.length = c.samples + 1 ∧ (∀ v ∈ lut, v ≤ c.satMax) ∧ lut[0]? = some 0 ∧
      (∀ i x y, i < c.samples → lut[i]? = some x → lut[i + 1]? = some y → x ≤ y) ∧
      lut[c.samples]? = some c.satMax := by
  rw [lutWf_iff_passes]
  constructor
  · intro h
    have hlen : lut.length = c.samples + 1 := of_decide_eq_true (h .len)
    exact ⟨hlen, by simpa [LutCheck.passes] using h .range, of_decide_eq_true (h .zero),
      (passes_mono_iff hlen).mp (h .mono), of_decide_eq_true (h .sent)⟩
  · rintro ⟨hlen, hrange, hzero, hmono, hsent⟩ k
    cases k with
    | len => exact decide_eq_true hlen
    | range => simpa [LutCheck.passes] using hrange
    | zero => exact decide_eq_true hzero
    | mono => exact (passes_mono_iff hlen).mpr hmono
    | sent => exact decide_eq_true hsent

/-- What elaboration accepts, said once: the block it makes is the one whose parameters it was given. -/
theorem elaborate_eq_ok_iff {c : Cfg} {lut : List Nat} {lat qdepth : Nat} {p : Params} :
    elaborate c lut lat qdepth = .ok p ↔ p.cfg = c ∧ p.lut = lut ∧ p.lat = lat ∧ p.qdepth = qdepth := by
  constructor
  · intro h
    unfold elaborate at h
    split_ifs at h
    cases h
    exact ⟨rfl, rfl, rfl, rfl⟩
  · rintro ⟨rfl, rfl, rfl, rfl⟩
    simp [elaborate, p.lutOk, p.latPos, p.qdepthPos]

/-- Elaboration makes a block exactly when such parameters exist: their bounds and the table's proof are all they need. -/
theorem exists_elaborate_eq_ok_iff {c : Cfg} {lut : List Nat} {lat qdepth : Nat} :
    (∃ p, elaborate c lut lat qdepth = .ok p) ↔ lutWf c lut = true ∧ 1 ≤ lat ∧ 1 ≤ qdepth := by
  simp only [elaborate_eq_ok_iff]
  constructor
  · rintro ⟨p, rfl, rfl, rfl, rfl⟩
    exact ⟨p.lutOk, p.latPos, p.qdepthPos⟩
  · rintro ⟨hwf, hlat, hqdepth⟩
    exact ⟨⟨c, lut, hwf, lat, hlat, qdepth, hqdepth⟩, rfl, rfl, rfl, rfl⟩

/-- A table is refused only when it fails `LUT_WF`, by the name of its first failing check. -/
theorem elaborate_eq_table {c : Cfg} {lut : List Nat} {lat qdepth : Nat} {k : LutCheck}
    (h : elaborate c lut lat qdepth = .error (.table k)) :
    lutWf c lut ≠ true ∧ (failingChecks c lut).headD .len = k := by
  unfold elaborate at h
  split at h
  case isTrue => split_ifs at h <;> cases h
  case isFalse hwf =>
    cases h
    exact ⟨hwf, rfl⟩

/-- A table that fails `LUT_WF` has a failing check, so the first of them is one. -/
theorem headD_failingChecks_mem {c : Cfg} {lut : List Nat} (h : lutWf c lut ≠ true) :
    (failingChecks c lut).headD .len ∈ failingChecks c lut := by
  have hne : failingChecks c lut ≠ [] := by
    intro hnil
    refine h (List.all_eq_true.mpr fun k hk => ?_)
    simpa using List.filter_eq_nil_iff.mp hnil k hk
  obtain ⟨k, ks, hks⟩ := List.exists_cons_of_ne_nil hne
  simp [hks]

/-- The checks listed as failing do fail. -/
theorem passes_eq_false_of_mem_failingChecks {c : Cfg} {lut : List Nat} {k : LutCheck} (h : k ∈ failingChecks c lut) :
    k.passes c lut = false := by
  simpa using List.of_mem_filter h

/-- Settles O42, from what elaboration accepts, `LUT_WF` in the words of rule R24, and the first failing check. -/
theorem elaborationAcceptsExactlyWellFormedTables : Obligations.ElaborationAcceptsExactlyWellFormedTables := by
  unfold Obligations.ElaborationAcceptsExactlyWellFormedTables
  intro c lut lat qdepth
  refine ⟨?accepts, fun _ => elaborate_eq_ok_iff.mp, ?names⟩
  case accepts =>
    rw [exists_elaborate_eq_ok_iff, lutWf_iff]
    simp only [and_assoc]
  case names =>
    intro k h
    obtain ⟨hwf, rfl⟩ := elaborate_eq_table h
    exact passes_eq_false_of_mem_failingChecks (headD_failingChecks_mem hwf)

end Sys2Proof.Machine
end

