-- ==== Sys2Proof/Proofs/Assembler.lean ====
section
/-! What the assembler's pseudo-instructions expand to (rule R68). -/

namespace Sys2Proof.Machine

/-- The last index of `lutrdall` fits in an operand, so no word of its expansion is cut off. -/
theorem samples_lt_two_pow_32 (c : Cfg) : c.samples < 2 ^ 32 := by
  cases c <;> decide

/-- Fields that fit are packed as they stand (rule R67). -/
theorem assembleFields_of_lt {op b a : Nat} (hop : op < 2 ^ 4) (hb : b < 2 ^ 32) (ha : a < 2 ^ 32) :
    assembleFields op b a = .ok (packReq (BitVec.ofNat 4 op) (BitVec.ofNat 32 b) (BitVec.ofNat 32 a)) :=
  if_pos ⟨hop, hb, ha⟩

/-- The line `lutrd` with an index that fits is one request word. -/
theorem assemble_lutrd {c : Cfg} {index : Nat} (h : index < 2 ^ 32) :
    assemble c (.lutrd index) = .ok [packReq 0x3 0 (BitVec.ofNat 32 index)] := by
  rw [assemble, assembleFields_of_lt (by decide) (by decide) h]
  rfl

theorem length_lutrdWords (indexes : List Nat) : (lutrdWords indexes).length = indexes.length :=
  List.length_map _

theorem getElem?_lutrdWords_range {n i : Nat} (h : i < n) :
    (lutrdWords (List.range n))[i]? = some (packReq 0x3 0 (BitVec.ofNat 32 i)) := by
  simp [lutrdWords, h]

/-- The opcode that `lutrd` assembles to is the one that decodes to `lutrd`. -/
theorem decode_packReq_lutrd (b a : Word) : decode (packReq 0x3 b a) = .lutrd a b :=
  decode_packReq 0x3 b a

/-- Settles O58: `clrall` and `apx` assemble the fields of the lines they stand for, and the word at place `i` of
`lutrdall` is the one of `lutrd i`. -/
theorem pseudoInstructionExpansions : Obligations.PseudoInstructionExpansions := by
  unfold Obligations.PseudoInstructionExpansions
  intro c x y
  refine ⟨rfl, rfl, lutrdWords (List.range (c.samples + 1)), rfl, ?length, ?word⟩
  case length => rw [length_lutrdWords, List.length_range]
  case word =>
    intro i hi
    exact ⟨packReq 0x3 0 (BitVec.ofNat 32 i), getElem?_lutrdWords_range (Nat.lt_succ_of_le hi),
      assemble_lutrd (hi.trans_lt (samples_lt_two_pow_32 c)), decode_packReq_lutrd 0 _⟩

end Sys2Proof.Machine
end

