-- ==== Sys2Proof/Proofs/InterpolateResults.lean ====
section
/-! What the interpolation commands answer, branch by branch of their pseudocode, and what completing with that answer
does to the state (rules R80 to R85). -/

namespace Sys2Proof.Machine

/-- The state in which a command leaves `s` when it completes with `data` and code OK. -/
theorem completeCommand_ok (data : Word) (s : State) :
    completeCommand { data := data, err := none } s =
      { s with queue := s.queue ++ [{ rsp := { data := data, err := none }, age := 0 }] } := rfl

/-- A raised error's bit is one that exists in STATUS, so the write of STATUS cuts nothing off. -/
theorem setStatusBit_status_eq_or (e : Err) (s : State) : (setStatusBit e s).status = readStatus s ||| e.mask := by
  have hread : readStatus (setStatusBit e s) = (setStatusBit e s).status := by
    simp [readStatus, BitVec.and_assoc]
  rw [← hread, readStatus_setStatusBit]

/-- The state in which a command leaves `s` when it completes with `data` and an error. -/
theorem completeCommand_err (data : Word) (e : Err) (s : State) :
    completeCommand { data := data, err := some e } s =
      { s with
        queue := s.queue ++ [{ rsp := { data := data, err := some e }, age := 0 }]
        status := readStatus s ||| e.mask } := by
  rw [← setStatusBit_status_eq_or]
  rfl

theorem exec_apxp (t period : Word) (s : State) :
    exec (.apxp t period) s = .next (completeCommand (apxpResult s.params t.toNat period.toNat) s) := rfl

theorem exec_apxf (t period : Word) (s : State) :
    exec (.apxf t period) s = .next (completeCommand (apxfResult s.params t.toNat period.toNat) s) := rfl

theorem edgeRule_eq_true {t period : Nat} (h : period ≤ t + 1) : edgeRule t period = true := decide_eq_true h

theorem edgeRule_eq_false {t period : Nat} (h : t + 1 < period) : edgeRule t period = false :=
  decide_eq_false (Nat.not_le_of_lt h)

/-- The edge rule with a proper period raises nothing (rule R81). -/
theorem edgeResult_of_ne_zero (c : Cfg) {period : Nat} (h : period ≠ 0) :
    edgeResult c period = { data := zext32 c.satMax, err := none } := by
  simp [edgeResult, h]

/-- The edge rule with period 0 raises `PZERO` (rule R82). -/
theorem edgeResult_zero (c : Cfg) : edgeResult c 0 = { data := zext32 c.satMax, err := some .pzero } := rfl

section Branches

variable (p : Params) {t period : Nat}

theorem apxpResult_of_edge (h : period ≤ t + 1) : apxpResult p t period = edgeResult p.cfg period := by
  simp [apxpResult, edgeRule_eq_true h]

theorem apxfResult_of_edge (h : period ≤ t + 1) : apxfResult p t period = edgeResult p.cfg period := by
  simp [apxfResult, edgeRule_eq_true h]

theorem apxpResult_of_width_zero (h : t + 1 < period) (hdx : apxpWidth p.cfg period = 0) :
    apxpResult p t period = { data := 0, err := some .divz } := by
  simp [apxpResult, edgeRule_eq_false h, hdx]

theorem apxpResult_of_overflow (h : t + 1 < period) (hdx : apxpWidth p.cfg period ≠ 0)
    (hv : p.cfg.satMax < apxpExact p t period) :
    apxpResult p t period = { data := zext32 (apxpExact p t period % 2 ^ p.cfg.width), err := some .ovr } := by
  simp [apxpResult, edgeRule_eq_false h, hdx, hv]

/-- A value that is at most MAX is not narrowed. -/
theorem apxpResult_of_le_satMax (h : t + 1 < period) (hdx : apxpWidth p.cfg period ≠ 0)
    (hv : apxpExact p t period ≤ p.cfg.satMax) :
    apxpResult p t period = { data := zext32 (apxpExact p t period), err := none } := by
  have hmod : apxpExact p t period % 2 ^ p.cfg.width = apxpExact p t period :=
    Nat.mod_eq_of_lt (Nat.lt_of_le_pred (Nat.two_pow_pos _) hv)
  simp [apxpResult, edgeRule_eq_false h, hdx, hmod, Nat.not_lt_of_le hv]

theorem apxfResult_of_lt (h : t + 1 < period) :
    apxfResult p t period = { data := zext32 (apxfExact p t period), err := none } := by
  simp [apxfResult, edgeRule_eq_false h]

end Branches

/-- MAX fits in the data of a response. -/
theorem satMax_lt_two_pow_32 (c : Cfg) : c.satMax < 2 ^ 32 := by
  cases c <;> decide

/-- A brightness passes through the data of a response unchanged. -/
theorem toNat_zext32_of_le_satMax {c : Cfg} {v : Nat} (h : v ≤ c.satMax) : (zext32 v).toNat = v :=
  Nat.mod_eq_of_lt (h.trans_lt (satMax_lt_two_pow_32 c))

/-! `APXF` in the multiplications and divisions that its shifts stand for (rule R85). -/

theorem apxfScaled_eq_div (t period : Nat) : apxfScaled t period = t * 256 / period := by
  rw [apxfScaled, Nat.shiftLeft_eq]

theorem apxfIndex_eq_div (c : Cfg) (t period : Nat) : apxfIndex c t period = apxfScaled t period / 2 ^ c.shift :=
  Nat.shiftRight_eq_div_pow _ _

theorem apxfStart_eq_mul (c : Cfg) (t period : Nat) : apxfStart c t period = apxfIndex c t period * 2 ^ c.shift :=
  Nat.shiftLeft_eq _ _

/-- Settles O14, by the branches of R84's pseudocode. -/
theorem apxpFollowsItsRule : Obligations.ApxpFollowsItsRule := by
  unfold Obligations.ApxpFollowsItsRule
  intro s a b
  rw [exec_apxp]
  refine congrArg Host.Outcome.next ?_
  split_ifs with hedge hzero hdx hv
  · rw [apxpResult_of_edge s.params hedge, hzero, edgeResult_zero, completeCommand_err]
    rfl
  · rw [apxpResult_of_edge s.params hedge, edgeResult_of_ne_zero _ hzero, completeCommand_ok]
    rfl
  · rw [apxpResult_of_width_zero s.params (Nat.lt_of_not_le hedge) hdx, completeCommand_err]
    rfl
  · rw [apxpResult_of_overflow s.params (Nat.lt_of_not_le hedge) hdx hv, completeCommand_err]
    rfl
  · rw [apxpResult_of_le_satMax s.params (Nat.lt_of_not_le hedge) hdx (Nat.le_of_not_lt hv), completeCommand_ok]
    rfl

/-- Settles O15, by the branches of R85's pseudocode. -/
theorem apxfFollowsItsRule : Obligations.ApxfFollowsItsRule := by
  unfold Obligations.ApxfFollowsItsRule
  intro s a b
  rw [exec_apxf]
  refine congrArg Host.Outcome.next ?_
  split_ifs with hedge hzero
  · rw [apxfResult_of_edge s.params hedge, hzero, edgeResult_zero, completeCommand_err]
    rfl
  · rw [apxfResult_of_edge s.params hedge, edgeResult_of_ne_zero _ hzero, completeCommand_ok]
    rfl
  · rw [apxfResult_of_lt s.params (Nat.lt_of_not_le hedge), completeCommand_ok, apxfExact, apxfStart_eq_mul,
      apxfIndex_eq_div, apxfScaled_eq_div, Nat.shiftRight_eq_div_pow]
    rfl

/-- Settles O16: the edge rule fires, and the period is not 0. -/
theorem timesPastTheEndGiveMax : Obligations.TimesPastTheEndGiveMax := by
  unfold Obligations.TimesPastTheEndGiveMax
  intro s t period hperiod hedge
  rw [exec_apxp, exec_apxf, apxpResult_of_edge s.params hedge, apxfResult_of_edge s.params hedge,
    edgeResult_of_ne_zero _ (Nat.ne_of_gt hperiod), completeCommand_ok]
  exact ⟨rfl, rfl⟩

/-- Settles O17: the edge rule fires for every t, and the period is 0. -/
theorem zeroPeriodRaisesPzero : Obligations.ZeroPeriodRaisesPzero := by
  unfold Obligations.ZeroPeriodRaisesPzero
  intro s t
  have hzero : (0 : Word).toNat = 0 := rfl
  have hedge : 0 ≤ t.toNat + 1 := Nat.zero_le _
  rw [exec_apxp, exec_apxf, hzero, apxpResult_of_edge s.params hedge, apxfResult_of_edge s.params hedge,
    edgeResult_zero, completeCommand_err]
  exact ⟨rfl, rfl⟩

/-- Settles O18: the edge rule's result is a function of the configuration and the period alone. -/
theorem edgeRuleReadsNoTableWord : Obligations.EdgeRuleReadsNoTableWord := by
  unfold Obligations.EdgeRuleReadsNoTableWord
  intro p q t period hcfg hedge
  rw [apxpResult_of_edge p hedge, apxpResult_of_edge q hedge, apxfResult_of_edge p hedge, apxfResult_of_edge q hedge,
    hcfg]
  exact ⟨rfl, rfl, rfl, rfl⟩

end Sys2Proof.Machine
end

