-- ==== Sys2Proof/Proofs/Segments.lean ====
section
/-! The segment that each interpolation command selects, and what `APXF` answers in it (rules R86, R87, R90, R93). -/

namespace Sys2Proof.Machine

/-- The nested-floor identity of rule R90. It holds for `period = 0` too, where both quotients are 0. -/
theorem apxfIndex_eq_apxpIndex (c : Cfg) (t period : Nat) : apxfIndex c t period = apxpIndex c t period := by
  calc apxfIndex c t period
      = t * 256 / (period * 2 ^ c.shift) := by rw [apxfIndex_eq_div, apxfScaled_eq_div, Nat.div_div_eq_div_mul]
    _ = t * c.samples * 2 ^ c.shift / (period * 2 ^ c.shift) := by rw [Nat.mul_assoc, samples_mul_two_pow_shift]
    _ = apxpIndex c t period := Nat.mul_div_mul_right _ _ (Nat.two_pow_pos _)

/-- A time before the end of the period lies in one of its n equal parts. -/
theorem mul_div_lt_of_lt {t period n : Nat} (h : t + 1 < period) (hn : 0 < n) : t * n / period < n := by
  rw [Nat.div_lt_iff_lt_mul (by omega), Nat.mul_comm n]
  exact Nat.mul_lt_mul_of_pos_right (by omega) hn

theorem apxpIndex_lt_samples (c : Cfg) {t period : Nat} (h : t + 1 < period) : apxpIndex c t period < c.samples :=
  mul_div_lt_of_lt h (samples_pos c)

theorem apxfIndex_lt_samples (c : Cfg) {t period : Nat} (h : t + 1 < period) : apxfIndex c t period < c.samples := by
  rw [apxfIndex_eq_apxpIndex]
  exact apxpIndex_lt_samples c h

theorem apxfScaled_lt_256 {t period : Nat} (h : t + 1 < period) : apxfScaled t period < 256 := by
  rw [apxfScaled_eq_div]
  exact mul_div_lt_of_lt h (by decide)

/-- Settles O24, by the nested-floor identity. -/
theorem bothVariantsSelectTheSameSegment : Obligations.BothVariantsSelectTheSameSegment := by
  unfold Obligations.BothVariantsSelectTheSameSegment
  exact fun c t period _ => apxfIndex_eq_apxpIndex c t period

/-- Settles O19, from the part of the period that t lies in, of N parts and of 256. -/
theorem segmentIndexInRange : Obligations.SegmentIndexInRange := by
  unfold Obligations.SegmentIndexInRange
  intro c t period h
  have hp := apxpIndex_lt_samples c h
  have hf := apxfIndex_lt_samples c h
  exact ⟨by omega, Nat.le_pred_of_lt hp, hp, Nat.le_of_lt_succ (apxfScaled_lt_256 h), Nat.le_pred_of_lt hf, hf⟩

/-- The offset in a segment is the scaled time modulo the parts of a segment (rule R87). -/
theorem apxfScaled_sub_apxfStart (c : Cfg) (t period : Nat) :
    apxfScaled t period - apxfStart c t period = apxfScaled t period % 2 ^ c.shift := by
  rw [apxfStart_eq_mul, apxfIndex_eq_div, Nat.mod_eq_sub_div_mul]

theorem apxfExact_eq_mod (p : Params) (t period : Nat) :
    apxfExact p t period =
      memRead p (apxfIndex p.cfg t period) +
        apxfScaled t period % 2 ^ p.cfg.shift *
          (memRead p (apxfIndex p.cfg t period + 1) - memRead p (apxfIndex p.cfg t period)) / 2 ^ p.cfg.shift := by
  rw [apxfExact, apxfScaled_sub_apxfStart, Nat.shiftRight_eq_div_pow]

/-- A fraction `u / m` below one of a rise d is below d. -/
theorem mul_div_lt_right {u m d : Nat} (hu : u < m) (hd : 0 < d) : u * d / m < d :=
  Nat.div_lt_of_lt_mul (Nat.mul_lt_mul_of_pos_right hu hd)

theorem mul_div_le_right {u m : Nat} (hu : u ≤ m) (d : Nat) : u * d / m ≤ d :=
  Nat.div_le_of_le_mul (Nat.mul_le_mul_right d hu)

theorem mul_div_eq_right_iff {u m d : Nat} (hu : u < m) : u * d / m = d ↔ d = 0 := by
  constructor
  · intro h
    by_contra hd
    exact (mul_div_lt_right hu (Nat.pos_of_ne_zero hd)).ne h
  · rintro rfl
    simp

theorem memRead_apxfIndex_le_apxfExact (p : Params) (t period : Nat) :
    memRead p (apxfIndex p.cfg t period) ≤ apxfExact p t period := Nat.le_add_right _ _

theorem apxfExact_le_memRead_succ (p : Params) {t period : Nat} (h : t + 1 < period) :
    apxfExact p t period ≤ memRead p (apxfIndex p.cfg t period + 1) := by
  have hmono := memRead_le_succ p (apxfIndex_lt_samples p.cfg h)
  rw [apxfExact_eq_mod]
  have hprod := mul_div_le_right (Nat.mod_lt (apxfScaled t period) (Nat.two_pow_pos p.cfg.shift)).le
    (memRead p (apxfIndex p.cfg t period + 1) - memRead p (apxfIndex p.cfg t period))
  omega

theorem apxfExact_le_satMax (p : Params) {t period : Nat} (h : t + 1 < period) :
    apxfExact p t period ≤ p.cfg.satMax :=
  (apxfExact_le_memRead_succ p h).trans (memRead_le_satMax p _)

/-- Settles O20: the offset is a proper fraction of the segment, so it adds less than the segment's rise. -/
theorem apxfStaysInItsSegment : Obligations.ApxfStaysInItsSegment := by
  unfold Obligations.ApxfStaysInItsSegment
  intro p t period h i u d
  have hmod : u = apxfScaled t period % 2 ^ p.cfg.shift := apxfScaled_sub_apxfStart p.cfg t period
  have hu : u < 2 ^ p.cfg.shift := hmod ▸ Nat.mod_lt _ (Nat.two_pow_pos _)
  rw [Nat.shiftRight_eq_div_pow]
  exact ⟨memRead_le_succ p (apxfIndex_lt_samples p.cfg h), hmod, Nat.le_pred_of_lt hu, mul_div_le_right hu.le d,
    mul_div_eq_right_iff hu, memRead_apxfIndex_le_apxfExact p t period, apxfExact_le_memRead_succ p h,
    memRead_le_satMax p (i + 1)⟩

theorem apxfScaled_mono {t₁ t₂ : Nat} (period : Nat) (h : t₁ ≤ t₂) : apxfScaled t₁ period ≤ apxfScaled t₂ period := by
  rw [apxfScaled_eq_div, apxfScaled_eq_div]
  exact Nat.div_le_div_right (Nat.mul_le_mul_right 256 h)

theorem apxfIndex_mono (c : Cfg) {t₁ t₂ : Nat} (period : Nat) (h : t₁ ≤ t₂) :
    apxfIndex c t₁ period ≤ apxfIndex c t₂ period := by
  rw [apxfIndex_eq_div, apxfIndex_eq_div]
  exact Nat.div_le_div_right (apxfScaled_mono period h)

/-- Two times in one segment are in the order of their offsets. -/
theorem apxfExact_le_of_same_segment (p : Params) {t₁ t₂ period : Nat} (h : t₁ ≤ t₂)
    (hi : apxfIndex p.cfg t₁ period = apxfIndex p.cfg t₂ period) :
    apxfExact p t₁ period ≤ apxfExact p t₂ period := by
  have hoffset : apxfScaled t₁ period - apxfStart p.cfg t₁ period ≤ apxfScaled t₂ period - apxfStart p.cfg t₂ period := by
    rw [apxfStart_eq_mul, apxfStart_eq_mul, hi]
    exact Nat.sub_le_sub_right (apxfScaled_mono period h) _
  simp only [apxfExact, hi, Nat.shiftRight_eq_div_pow]
  gcongr

/-- The value of an earlier segment is at most its end, which is at most the start of any later segment. -/
theorem apxfExact_le_of_earlier_segment (p : Params) {t₁ t₂ period : Nat} (h₁ : t₁ + 1 < period) (h₂ : t₂ + 1 < period)
    (hi : apxfIndex p.cfg t₁ period < apxfIndex p.cfg t₂ period) :
    apxfExact p t₁ period ≤ apxfExact p t₂ period :=
  calc apxfExact p t₁ period
      ≤ memRead p (apxfIndex p.cfg t₁ period + 1) := apxfExact_le_memRead_succ p h₁
    _ ≤ memRead p (apxfIndex p.cfg t₂ period) := memRead_mono p hi (apxfIndex_lt_samples p.cfg h₂).le
    _ ≤ apxfExact p t₂ period := memRead_apxfIndex_le_apxfExact p t₂ period

theorem apxfExact_mono (p : Params) {t₁ t₂ period : Nat} (h : t₁ ≤ t₂) (h₂ : t₂ + 1 < period) :
    apxfExact p t₁ period ≤ apxfExact p t₂ period := by
  rcases (apxfIndex_mono p.cfg period h).lt_or_eq with hi | hi
  · exact apxfExact_le_of_earlier_segment p (by omega) h₂ hi
  · exact apxfExact_le_of_same_segment p h hi

theorem toNat_apxfResult_of_edge (p : Params) {t period : Nat} (h : period ≤ t + 1) :
    (apxfResult p t period).data.toNat = p.cfg.satMax := by
  rw [apxfResult_of_edge p h]
  exact toNat_zext32_of_le_satMax le_rfl

theorem toNat_apxfResult_of_lt (p : Params) {t period : Nat} (h : t + 1 < period) :
    (apxfResult p t period).data.toNat = apxfExact p t period := by
  rw [apxfResult_of_lt p h]
  exact toNat_zext32_of_le_satMax (apxfExact_le_satMax p h)

/-- Settles O26: once the later time is past the end it answers MAX, and before the end both values are exact. -/
theorem apxfIsMonotonic : Obligations.ApxfIsMonotonic := by
  unfold Obligations.ApxfIsMonotonic
  intro p t₁ t₂ period _ h
  rcases Nat.lt_or_ge (t₂.toNat + 1) period.toNat with h₂ | h₂
  · have h₁ : t₁.toNat + 1 < period.toNat := by omega
    rw [toNat_apxfResult_of_lt p h₁, toNat_apxfResult_of_lt p h₂]
    exact apxfExact_mono p h h₂
  · rw [toNat_apxfResult_of_edge p h₂]
    rcases Nat.lt_or_ge (t₁.toNat + 1) period.toNat with h₁ | h₁
    · rw [toNat_apxfResult_of_lt p h₁]
      exact apxfExact_le_satMax p h₁
    · exact (toNat_apxfResult_of_edge p h₁).le

end Sys2Proof.Machine
end

