-- ==== Sys2Proof/Proofs/ApxpBounds.lean ====
section
/-! How far `APXP` can leave its segment (rules R88, R89). -/

namespace Sys2Proof.Machine

section

variable (c : Cfg) {t period : Nat}

/-- A segment starts at or before every time in it. -/
theorem apxpStart_le (t period : Nat) : apxpStart c t period ≤ t := by
  rw [apxpStart, apxpIndex]
  calc t * c.samples / period * period / c.samples
      ≤ t * c.samples / c.samples := Nat.div_le_div_right (Nat.div_mul_le_self _ _)
    _ = t := Nat.mul_div_cancel t (samples_pos c)

/-- The offset in a segment stays below `period/N + 1`, a rational bound, multiplied out by N (rule R88). -/
theorem apxp_offset_mul_samples_lt (h : t + 1 < period) :
    (t - apxpStart c t period) * c.samples < period + c.samples := by
  have htime : t * c.samples < apxpIndex c t period * period + period := by
    rw [apxpIndex, Nat.mul_comm _ period]
    exact Nat.lt_mul_div_succ _ (by omega)
  have hstart : apxpIndex c t period * period < apxpStart c t period * c.samples + c.samples := by
    rw [apxpStart, Nat.mul_comm _ c.samples]
    exact Nat.lt_mul_div_succ _ (samples_pos c)
  rw [Nat.sub_mul]
  omega

/-- The offset reaches past the segment's width by at most one (rule R88). -/
theorem apxp_offset_le_width_succ (h : t + 1 < period) :
    t - apxpStart c t period ≤ apxpWidth c period + 1 := by
  have hperiod : period < c.samples * (apxpWidth c period + 1) := Nat.lt_mul_div_succ _ (samples_pos c)
  have hoffset := apxp_offset_mul_samples_lt c h
  refine Nat.le_of_lt_succ (Nat.lt_of_mul_lt_mul_right (a := c.samples) ?_)
  calc (t - apxpStart c t period) * c.samples
      < c.samples * (apxpWidth c period + 1) + c.samples := by omega
    _ = (apxpWidth c period + 1 + 1) * c.samples := by ring

/-- Where N divides the period, the offset is t modulo the segment's width. -/
theorem apxp_offset_of_dvd (t : Nat) (hdvd : c.samples ∣ period) :
    t - apxpStart c t period = t % apxpWidth c period := by
  have hperiod : apxpWidth c period * c.samples = period := Nat.div_mul_cancel hdvd
  have hindex : apxpIndex c t period = t / apxpWidth c period := by
    rw [apxpIndex]
    nth_rw 1 [← hperiod]
    exact Nat.mul_div_mul_right _ _ (samples_pos c)
  have hstart : apxpStart c t period = t / apxpWidth c period * apxpWidth c period := by
    rw [apxpStart, hindex]
    nth_rw 2 [← hperiod]
    rw [← Nat.mul_assoc, Nat.mul_div_cancel _ (samples_pos c)]
  rw [hstart, Nat.mod_eq_sub_div_mul]

end

section

variable (p : Params) {t period : Nat}

/-- An offset of at most one more than the width adds at most the rise and one step of it (rule R88). -/
theorem apxpExact_le_memRead_succ_add (h : t + 1 < period) (hdx : 0 < apxpWidth p.cfg period) :
    apxpExact p t period ≤
      memRead p (apxpIndex p.cfg t period + 1) +
        (memRead p (apxpIndex p.cfg t period + 1) - memRead p (apxpIndex p.cfg t period)) / apxpWidth p.cfg period := by
  have hmono := memRead_le_succ p (apxpIndex_lt_samples p.cfg h)
  rw [apxpExact]
  generalize memRead p (apxpIndex p.cfg t period + 1) = y1 at hmono ⊢
  generalize memRead p (apxpIndex p.cfg t period) = y0 at hmono ⊢
  calc y0 + (t - apxpStart p.cfg t period) * (y1 - y0) / apxpWidth p.cfg period
      ≤ y0 + (apxpWidth p.cfg period + 1) * (y1 - y0) / apxpWidth p.cfg period := by
        gcongr
        exact apxp_offset_le_width_succ p.cfg h
    _ = y0 + ((y1 - y0) + (y1 - y0) / apxpWidth p.cfg period) := by
        rw [Nat.add_mul, Nat.one_mul, Nat.mul_add_div hdx]
    _ = y1 + (y1 - y0) / apxpWidth p.cfg period := by omega

theorem apxpExact_le_two_mul_satMax (h : t + 1 < period) (hdx : 0 < apxpWidth p.cfg period) :
    apxpExact p t period ≤ 2 * p.cfg.satMax := by
  have hv := apxpExact_le_memRead_succ_add p h hdx
  have hstep := Nat.div_le_self
    (memRead p (apxpIndex p.cfg t period + 1) - memRead p (apxpIndex p.cfg t period)) (apxpWidth p.cfg period)
  have hmax := memRead_le_satMax p (apxpIndex p.cfg t period + 1)
  omega

theorem memRead_apxpIndex_le_apxpExact : memRead p (apxpIndex p.cfg t period) ≤ apxpExact p t period :=
  Nat.le_add_right _ _

/-- In a segment without rise the value is the segment's start. -/
theorem apxpExact_of_no_rise
    (hd : memRead p (apxpIndex p.cfg t period + 1) - memRead p (apxpIndex p.cfg t period) = 0) :
    apxpExact p t period = memRead p (apxpIndex p.cfg t period) := by
  simp [apxpExact, hd]

/-- Where N divides the period, the offset is a proper fraction of the width, so a rising segment is not left. -/
theorem apxpExact_lt_memRead_succ_of_dvd (hdx : 0 < apxpWidth p.cfg period) (hdvd : p.cfg.samples ∣ period)
    (hd : memRead p (apxpIndex p.cfg t period + 1) - memRead p (apxpIndex p.cfg t period) ≠ 0) :
    apxpExact p t period < memRead p (apxpIndex p.cfg t period + 1) := by
  have hfraction := mul_div_lt_right (Nat.mod_lt t hdx) (Nat.pos_of_ne_zero hd)
  rw [← apxp_offset_of_dvd p.cfg t hdvd] at hfraction
  rw [apxpExact]
  omega

end

/-- The first example of rule R88, which rule R89 uses too. -/
theorem apxp_overshoot_11_13 :
    apxpExact Params.sample 11 13 = 285 ∧ apxpResult Params.sample 11 13 = { data := 29, err := some .ovr } := by decide

theorem apxp_overshoot_18_21 :
    apxpExact Params.sample 18 21 = 258 ∧ apxpResult Params.sample 18 21 = { data := 2, err := some .ovr } := by decide

theorem apxp_overshoot_23_25 :
    apxpExact Params.test16 23 25 = 65536 ∧ apxpResult Params.test16 23 25 = { data := 0, err := some .ovr } := by decide

/-- Settles O21, from the bounds on the offset in the segment and the three examples. -/
theorem apxpBounds : Obligations.ApxpBounds := by
  unfold Obligations.ApxpBounds
  refine ⟨?bounds, apxp_overshoot_11_13.1, apxp_overshoot_11_13.2, apxp_overshoot_18_21.1, apxp_overshoot_18_21.2,
    apxp_overshoot_23_25⟩
  intro p t period h hdx
  refine ⟨apxpStart_le p.cfg t period, apxp_offset_mul_samples_lt p.cfg h, apxp_offset_le_width_succ p.cfg h,
    apxpExact_le_memRead_succ_add p h hdx, apxpExact_le_two_mul_satMax p h hdx, fun hdvd => ⟨?offset,
    memRead_apxpIndex_le_apxpExact p, apxpExact_of_no_rise p, apxpExact_lt_memRead_succ_of_dvd p hdx hdvd⟩⟩
  case offset =>
    rw [apxp_offset_of_dvd p.cfg t hdvd]
    exact Nat.le_pred_of_lt (Nat.mod_lt t hdx)

/-- Settles O22, by running `APXP` on the operands of rule R89; the last of them ends the period. -/
theorem apxpIsNotMonotonic : Obligations.ApxpIsNotMonotonic := by
  unfold Obligations.ApxpIsNotMonotonic
  refine ⟨by decide, by decide, apxp_overshoot_11_13.2, ?_⟩
  exact apxpResult_of_edge Params.sample (by decide)

end Sys2Proof.Machine
end

