-- ==== Sys2Proof/Proofs/RegisterAccess.lean ====
section
/-! What the table and register access commands and the reserved opcodes answer, and what they leave unchanged
(rules R100 to R106). -/

namespace Sys2Proof.Machine

/-! ### LUTRD -/

theorem exec_lutrd (index b : Word) (s : State) :
    exec (.lutrd index b) s = .next (completeCommand (lutrdResult s.params index.toNat) s) := rfl

theorem lutrdResult_of_gt (p : Params) {index : Nat} (h : p.cfg.samples < index) :
    lutrdResult p index = { data := 0, err := some .idx } := if_pos h

theorem lutrdResult_of_le (p : Params) {index : Nat} (h : index ≤ p.cfg.samples) :
    lutrdResult p index = { data := zext32 (memRead p index), err := none } := if_neg (Nat.not_lt.mpr h)

/-- Settles O29, by the two branches of `LUTRD`'s pseudocode. -/
theorem lutrdFollowsItsRule : Obligations.LutrdFollowsItsRule := by
  unfold Obligations.LutrdFollowsItsRule
  intro s index b
  rw [exec_lutrd]
  split
  case isTrue h => rw [lutrdResult_of_gt s.params h, completeCommand_err]; rfl
  case isFalse h => rw [lutrdResult_of_le s.params (Nat.le_of_not_lt h), completeCommand_ok]; rfl

/-- A command that completes is followed by the rest of the stream. -/
theorem execAll_cons_of_next {i : Instr} {s t : State} (h : exec i s = .next t) (is : List Instr) :
    execAll (i :: is) s = execAll is t := by
  rw [execAll, h]

/-- The command stream that reads the table at the given indexes. -/
def lutrdStream (b : Word) (indexes : List Nat) : List Instr :=
  indexes.map fun i => .lutrd (BitVec.ofNat 32 i) b

theorem lutrdStream_cons (b : Word) (i : Nat) (is : List Nat) :
    lutrdStream b (i :: is) = .lutrd (BitVec.ofNat 32 i) b :: lutrdStream b is := rfl

/-- A valid index fits in the operand, so `LUTRD` reads the word of that very index, and only `Q` changes. -/
theorem exec_lutrd_ofNat (b : Word) {s : State} {i : Nat} (h : i ≤ s.params.cfg.samples) :
    exec (.lutrd (BitVec.ofNat 32 i) b) s =
      .next (appendResponse (lutrdResult s.params i) s) := by
  have hi : (BitVec.ofNat 32 i).toNat = i := by
    rw [BitVec.toNat_ofNat, Nat.mod_eq_of_lt (h.trans_lt (samples_lt_two_pow_32 s.params.cfg))]
  rw [exec_lutrd, hi, lutrdResult_of_le s.params h]
  rfl

/-- Reads at valid indexes append their responses in order and change nothing else. -/
theorem execAll_lutrdStream (b : Word) (indexes : List Nat) (s : State) (h : ∀ i ∈ indexes, i ≤ s.params.cfg.samples) :
    execAll (lutrdStream b indexes) s =
      some { s with
        queue := s.queue ++ (indexes.map (lutrdResult s.params)).map fun r => { rsp := r, age := 0 } } := by
  induction indexes generalizing s with
  | nil => simp [lutrdStream, execAll]
  | cons i is ih =>
    rw [List.forall_mem_cons] at h
    obtain ⟨hi, his⟩ := h
    rw [lutrdStream_cons, execAll_cons_of_next (exec_lutrd_ofNat b hi), ih (appendResponse _ s) his]
    simp [appendResponse]

/-- The word of a valid index leaves the block as it stands in the table: none is wider than the response data. -/
theorem toNat_lutrdResult_data (p : Params) {i : Nat} (h : i ≤ p.cfg.samples) :
    (lutrdResult p i).data.toNat = memRead p i := by
  rw [lutrdResult_of_le p h]
  exact toNat_zext32_of_le_satMax (memRead_le_satMax p i)

/-- The words at the indexes 0 to N are the whole table. -/
theorem map_memRead_range (p : Params) : (List.range (p.cfg.samples + 1)).map (memRead p) = p.lut := by
  rw [← lut_length]
  apply List.ext_getElem
  · simp
  · intro i _ hi
    simp [memRead, hi]

/-- Settles O30, by induction on the list of indexes read. -/
theorem lutrdReadsBackTheTable : Obligations.LutrdReadsBackTheTable := by
  unfold Obligations.LutrdReadsBackTheTable
  intro s b
  have hvalid : ∀ i ∈ List.range (s.params.cfg.samples + 1), i ≤ s.params.cfg.samples :=
    fun i hi => Nat.le_of_lt_succ (List.mem_range.mp hi)
  refine ⟨(List.range (s.params.cfg.samples + 1)).map (lutrdResult s.params), ?data, ?ok, _,
    execAll_lutrdStream b _ s hvalid, rfl, rfl⟩
  case data =>
    rw [List.map_map, ← map_memRead_range]
    exact List.map_congr_left fun i hi => toNat_lutrdResult_data s.params (hvalid i hi)
  case ok =>
    intro r hr
    obtain ⟨i, hi, rfl⟩ := List.mem_map.mp hr
    rw [lutrdResult_of_le s.params (hvalid i hi)]

/-! ### STATRD and STATCLR -/

/-- What `STATRD` does: the state it leaves differs in `Q` alone (rules R102, R103). -/
theorem exec_statrd (a b : Word) (s : State) :
    exec (.statrd a b) s =
      .next { s with queue := s.queue ++ [{ rsp := { data := readStatus s, err := none }, age := 0 }] } := rfl

/-- Settles O31: the first `STATRD` leaves STATUS as it is, so the second answers the same. -/
theorem statrdFollowsItsRule : Obligations.StatrdFollowsItsRule := by
  unfold Obligations.StatrdFollowsItsRule
  intro s a b a' b'
  refine ⟨exec_statrd a b s, ?_⟩
  rw [execAll_cons_of_next (exec_statrd a b s), execAll_cons_of_next (exec_statrd a' b' _), execAll]
  simp [readStatus, statusBits]

/-- The bits of STATUS that exist are the bits 4 to 0 (rule R26). -/
theorem getLsbD_statusBits (j : Nat) : statusBits.getLsbD j = decide (j < 5) := by
  have h : statusBits = (BitVec.allOnes 5).setWidth 32 := by decide
  rw [h, BitVec.getLsbD_setWidth, BitVec.getLsbD_allOnes]
  grind

/-- The mask of `STATCLR` is `a[4:0]` (rule R104). -/
theorem getLsbD_clearMask (a : Word) (j : Nat) : (clearMask a).getLsbD j = (decide (j < 5) && a.getLsbD j) := by
  rw [clearMask, BitVec.getLsbD_setWidth, BitVec.getLsbD_extractLsb', Nat.zero_add]
  grind

/-- Rule R104, bit by bit. -/
theorem getLsbD_status_clearStatusBits (a : Word) (s : State) (j : Nat) :
    (clearStatusBits (clearMask a) s).status.getLsbD j = (decide (j < 5) && s.status.getLsbD j && !a.getLsbD j) := by
  rw [clearStatusBits_status, readStatus]
  simp only [BitVec.getLsbD_and, BitVec.getLsbD_not, getLsbD_statusBits, getLsbD_clearMask]
  by_cases hj : j < 5
  case pos =>
    have hword : j < 32 := by omega
    simp [hj, hword]
  case neg => simp [hj]

/-- Settles O32, from what `STATCLR` does and the bits of STATUS after a clear. -/
theorem statclrFollowsItsRule : Obligations.StatclrFollowsItsRule := by
  unfold Obligations.StatclrFollowsItsRule
  intro s a b
  exact ⟨(clearStatusBits (clearMask a) s).status, exec_statclr a b s, getLsbD_status_clearStatusBits a s⟩

/-! ### IDRD -/

theorem exec_idrd (a b : Word) (s : State) :
    exec (.idrd a b) s = .next (completeCommand { data := readId s.params, err := none } s) := rfl

/-- The identification constant packs `REV`, S, N and W of the configuration (rule R28). -/
theorem readId_eq (p : Params) : readId p = if p.cfg = .pli8 then 0x01050808 else 0x01041010 := by
  unfold readId
  cases p.cfg <;> decide

/-- Settles O33, from the identification constant of each configuration. -/
theorem idrdFollowsItsRule : Obligations.IdrdFollowsItsRule := by
  unfold Obligations.IdrdFollowsItsRule
  intro s a b
  rw [exec_idrd, readId_eq, completeCommand_ok]

/-! ### Reserved opcodes -/

/-- What a reserved opcode does to the state (rule R106). -/
theorem reservedCommand_eq (s : State) :
    reservedCommand s =
      { s with
        queue := s.queue ++ [{ rsp := { data := 0, err := some .ill }, age := 0 }]
        status := readStatus s ||| 0x1 } :=
  completeCommand_err 0 .ill s

/-- Every reserved opcode has the one meaning, whatever its operands (rules R65, R106). -/
theorem exec_reserved (s : State) (a b : Word) :
    ∀ i ∈ [Instr.reserved0 a b, .reserved7 a b, .reserved8 a b, .reserved9 a b, .reservedA a b, .reservedB a b,
      .reservedC a b, .reservedD a b, .reservedE a b, .reservedF a b],
    exec i s = .next (reservedCommand s) := by
  simp only [List.forall_mem_cons, List.not_mem_nil, false_implies, implies_true, and_true]
  exact ⟨rfl, rfl, rfl, rfl, rfl, rfl, rfl, rfl, rfl, rfl⟩

/-- Settles O34: every reserved opcode runs the one reserved command. -/
theorem reservedOpcodesRaiseIll : Obligations.ReservedOpcodesRaiseIll := by
  unfold Obligations.ReservedOpcodesRaiseIll
  intro s a b i hi
  rw [exec_reserved s a b i hi, reservedCommand_eq]

end Sys2Proof.Machine
end

