-- ==== Sys2Proof/Proofs/GeneratorTable.lean ====
section
/-! What the generator refuses, what it answers, and which checks its table passes (rules R122, R125, R126). -/

namespace Sys2Proof.Machine

/-! ### What the generator answers -/

/-- What the generator accepts and answers, said once: it emits a table only for a positive period, a sample count that is a
power of two, and the pair of a configuration (rules R122, R125). -/
theorem generate_eq_ok {f : Curve} {period : Int} {n w : Nat} {lut : List Nat} (h : generate f period n w = .ok lut) :
    0 < period ∧ isPowerOfTwo n = true ∧ ∃ c body, Cfg.ofPair n w = some c ∧
      samplesOf f period n w (List.range n) = some body ∧ lut = body ++ [c.satMax] := by
  unfold generate at h
  split_ifs at h with hperiod hpower
  split at h
  case h_1 => cases h
  case h_2 c hpair =>
    split at h
    case h_1 => cases h
    case h_2 body hbody =>
      cases h
      exact ⟨by omega, by simpa using hpower, c, body, hpair, hbody, rfl⟩

/-- A sample count that passes the check is a power of two. -/
theorem exists_eq_two_pow_of_isPowerOfTwo {n : Nat} (h : isPowerOfTwo n = true) : ∃ k, n = 2 ^ k := by
  rw [isPowerOfTwo, Bool.and_eq_true] at h
  exact ⟨Nat.log2 n, of_decide_eq_true h.2⟩

/-- The pair of a configuration is one of the two of rule R2. -/
theorem pair_of_ofPair {n w : Nat} {c : Cfg} (h : Cfg.ofPair n w = some c) : (n, w) = (8, 8) ∨ (n, w) = (16, 16) := by
  obtain ⟨rfl, rfl⟩ := samples_width_of_ofPair h
  cases c
  case pli8 => exact .inl rfl
  case pli16 => exact .inr rfl

/-- Settles O53: whatever the generator emits a table for breaks none of the three checks. -/
theorem generatorRefusesBadInputs : Obligations.GeneratorRefusesBadInputs := by
  unfold Obligations.GeneratorRefusesBadInputs
  intro f period n w hbad
  cases hgen : generate f period n w with
  | error e => exact ⟨e, rfl⟩
  | ok lut =>
    obtain ⟨hperiod, hpower, c, -, hpair, -, -⟩ := generate_eq_ok hgen
    obtain hbad | hbad | ⟨h8, h16⟩ := hbad
    · omega
    · exact absurd (exists_eq_two_pow_of_isPowerOfTwo hpower) hbad
    · obtain h | h := pair_of_ofPair hpair
      · exact absurd h h8
      · exact absurd h h16

/-! ### The emitted table -/

/-- The generator's k-th sample for a configuration, truncated, if it is finite (rules R124, R125). -/
def truncatedSample (f : Curve) (period : Int) (c : Cfg) (k : Nat) : Option Int :=
  (f (sampleOffset period c.samples k) (F64.ofInt period)).trunc

/-- A sample that is not finite is what a generation for a configuration and a positive period is refused for. -/
theorem generate_eq_nonFinite_iff (f : Curve) {period : Int} (c : Cfg) (hp : 0 < period) :
    generate f period c.samples c.width = .error .nonFinite ↔ ∃ k, k < c.samples ∧ truncatedSample f period c k = none := by
  have hnone := samplesOf_eq_none f period c.samples c.width (List.range c.samples)
  simp only [List.mem_range] at hnone
  rw [generate_of_cfg f period c hp]
  simp only [truncatedSample, ← hnone]
  cases samplesOf f period c.samples c.width (List.range c.samples) <;> simp

/-- What an emitted table holds: N + 1 entries, each sample truncated and wrapped, then MAX (rules R125, R130). -/
theorem generated_entries {f : Curve} {period : Int} {c : Cfg} {lut : List Nat}
    (h : generate f period c.samples c.width = .ok lut) :
    lut.length = c.samples + 1 ∧ lut[c.samples]? = some c.satMax ∧
      ∀ k, k < c.samples → ∃ v, truncatedSample f period c k = some v ∧ lut[k]? = some (wrapSample c.width v) := by
  obtain ⟨-, -, c', body, hpair, hbody, rfl⟩ := generate_eq_ok h
  rw [ofPair_of_cfg, Option.some.injEq] at hpair
  subst hpair
  obtain ⟨hlen, hentry⟩ := samplesOf_eq_some hbody
  rw [List.length_range] at hlen
  refine ⟨by simp [hlen], by simp [← hlen], fun k hk => ?_⟩
  obtain ⟨v, hv, hk'⟩ := hentry k k (by simp [hk])
  exact ⟨v, hv, by rw [List.getElem?_append_left (by omega), hk']⟩

/-- Settles O54, from when a generation is refused and what an emitted table holds. -/
theorem generatorConvertsAndAppendsTheSentinel : Obligations.GeneratorConvertsAndAppendsTheSentinel := by
  unfold Obligations.GeneratorConvertsAndAppendsTheSentinel
  intro f period c hp
  have hrefused := generate_eq_nonFinite_iff f c hp
  refine ⟨hrefused.symm, fun hfinite => ?_⟩
  cases hbody : samplesOf f period c.samples c.width (List.range c.samples) with
  | none =>
    obtain ⟨k, hk, hnone⟩ := hrefused.mp (by rw [generate_of_cfg f period c hp, hbody])
    exact absurd hnone (hfinite k hk)
  | some body =>
    have hgen : generate f period c.samples c.width = .ok (body ++ [c.satMax]) := by
      rw [generate_of_cfg f period c hp, hbody]
    exact ⟨_, hgen, generated_entries hgen⟩

/-! ### The checks of an emitted table -/

/-- A wrapped sample is at most MAX. -/
theorem wrapSample_le_satMax (c : Cfg) (v : Int) : wrapSample c.width v ≤ c.satMax := by
  have hpos : (0 : Int) < (2 ^ c.width : Nat) := by positivity
  have hnonneg := Int.emod_nonneg v hpos.ne'
  have hlt := Int.emod_lt_of_pos v hpos
  rw [wrapSample, Cfg.satMax]
  omega

/-- A sample in the range of the words is not changed by the wrap. -/
theorem wrapSample_of_le_satMax {c : Cfg} {v : Int} (h0 : 0 ≤ v) (h : v ≤ c.satMax) : wrapSample c.width v = v.toNat := by
  have hpos : 0 < 2 ^ c.width := by positivity
  rw [Cfg.satMax] at h
  rw [wrapSample, Int.emod_eq_of_lt h0 (by omega)]

section

variable {f : Curve} {period : Int} {c : Cfg} {lut : List Nat}

theorem generated_le_satMax (h : generate f period c.samples c.width = .ok lut) : ∀ v ∈ lut, v ≤ c.satMax := by
  obtain ⟨hlen, hsent, hentry⟩ := generated_entries h
  intro v hv
  obtain ⟨k, hk, hget⟩ := List.getElem_of_mem hv
  rw [← Option.some.injEq, ← List.getElem?_eq_getElem hk] at hget
  obtain hlt | rfl : k < c.samples ∨ k = c.samples := by omega
  · obtain ⟨s, -, hs⟩ := hentry k hlt
    rw [hs, Option.some.injEq] at hget
    exact hget ▸ wrapSample_le_satMax c s
  · rw [hsent, Option.some.injEq] at hget
    exact hget.ge

/-- A first sample that truncates to 0 is the table's leading 0. -/
theorem generated_zero (h : generate f period c.samples c.width = .ok lut) (hzero : truncatedSample f period c 0 = some 0) :
    lut[0]? = some 0 := by
  obtain ⟨-, -, hentry⟩ := generated_entries h
  obtain ⟨v, hv, hget⟩ := hentry 0 (samples_pos c)
  rw [hzero, Option.some.injEq] at hv
  rw [hget, ← hv, wrapSample_of_le_satMax (le_refl 0) (Int.natCast_nonneg _)]
  rfl

/-- Samples that need no wrap and do not fall give entries that do not fall; the last step is up to MAX. -/
theorem generated_mono (h : generate f period c.samples c.width = .ok lut)
    (hrange : ∀ k v, k < c.samples → truncatedSample f period c k = some v → 0 ≤ v ∧ v ≤ c.satMax)
    (hmono : ∀ k v v', k + 1 < c.samples → truncatedSample f period c k = some v →
      truncatedSample f period c (k + 1) = some v' → v ≤ v') :
    ∀ i x y, i < c.samples → lut[i]? = some x → lut[i + 1]? = some y → x ≤ y := by
  obtain ⟨-, hsent, hentry⟩ := generated_entries h
  intro i x y hi hx hy
  obtain hlast | hlt : i + 1 = c.samples ∨ i + 1 < c.samples := by omega
  · rw [hlast, hsent, Option.some.injEq] at hy
    exact hy ▸ generated_le_satMax h x (List.mem_of_getElem? hx)
  · obtain ⟨v, hv, hget⟩ := hentry i hi
    obtain ⟨v', hv', hget'⟩ := hentry (i + 1) hlt
    obtain ⟨h0, hmax⟩ := hrange i v hi hv
    obtain ⟨h0', hmax'⟩ := hrange (i + 1) v' hlt hv'
    rw [hget, Option.some.injEq, wrapSample_of_le_satMax h0 hmax] at hx
    rw [hget', Option.some.injEq, wrapSample_of_le_satMax h0' hmax'] at hy
    rw [← hx, ← hy]
    exact Int.toNat_le_toNat (hmono i v v' hlt hv hv')

end

/-- Settles O55, check by check; elaboration asks for the five checks and no more. -/
theorem generatedTablePassesItsChecks : Obligations.GeneratedTablePassesItsChecks := by
  unfold Obligations.GeneratedTablePassesItsChecks
  intro f period c lut _ hgen sample zero mono
  obtain ⟨hlength, hlast, -⟩ := generated_entries hgen
  have hlen : LutCheck.passes c lut .len = true := decide_eq_true hlength
  have hrange : LutCheck.passes c lut .range = true := by simpa [LutCheck.passes] using generated_le_satMax hgen
  have hsent : LutCheck.passes c lut .sent = true := decide_eq_true hlast
  have hzero : zero → LutCheck.passes c lut .zero = true := fun hz => decide_eq_true (generated_zero hgen hz)
  have hmono : mono → LutCheck.passes c lut .mono = true := fun ⟨hvalues, hrising⟩ =>
    (passes_mono_iff hlength).mpr (generated_mono hgen hvalues hrising)
  refine ⟨hlen, hrange, hsent, hzero, hmono, fun hz hm => ?_⟩
  have hwf : lutWf c lut = true := lutWf_iff_passes.mpr fun k => by
    cases k with
    | len => exact hlen
    | range => exact hrange
    | zero => exact hzero hz
    | mono => exact hmono hm
    | sent => exact hsent
  obtain ⟨p, hp⟩ := exists_elaborate_eq_ok_iff.mpr ⟨hwf, le_refl 1, le_refl 1⟩
  obtain ⟨-, hlut, -, -⟩ := elaborate_eq_ok_iff.mp hp
  exact ⟨p, hp, hlut⟩

end Sys2Proof.Machine
end

