-- ==== Sys2Proof/Proofs/NearestEven.lean ====
section
/-! The binary64 conversion rounds to nearest, ties to even, and overflows half a last place above the greatest finite number
(rule R124). -/

namespace Sys2Proof

/-- The greatest finite number and half a unit in its last place. -/
def overflowThreshold : ℚ := (2 ^ 54 - 1) * 2 ^ 970

/-- The form of a finite binary64 number `m * 2^e`. -/
def InFormat (m : Nat) (e : Int) : Prop := m < 2 ^ 53 ∧ -1074 ≤ e ∧ e ≤ 971 ∧ (2 ^ 52 ≤ m ∨ e = -1074)

/-- No number of the format is nearer to `x` than `m * 2^e`, and where another one is as near, `m` is even. -/
def NearestEven (x : ℚ) (m : Nat) (e : Int) : Prop :=
  ∀ (k : Nat) (f : Int), k < 2 ^ 53 → -1074 ≤ f → f ≤ 971 →
    |x - m * (2 : ℚ) ^ e| ≤ |x - k * (2 : ℚ) ^ f| ∧
    (|x - m * (2 : ℚ) ^ e| = |x - k * (2 : ℚ) ^ f| → (k : ℚ) * (2 : ℚ) ^ f = m * (2 : ℚ) ^ e ∨ m % 2 = 0)

theorem two_zpow_succ (q : Int) : (2 : ℚ) ^ (q + 1) = 2 * (2 : ℚ) ^ q := by
  rw [zpow_add_one₀ two_ne_zero, mul_comm]

theorem two_zpow_le {p q : Int} (h : p ≤ q) : (2 : ℚ) ^ p ≤ (2 : ℚ) ^ q := zpow_le_zpow_right₀ one_le_two h

theorem overflowThreshold_eq : overflowThreshold = (2 ^ 54 - 1) * (2 : ℚ) ^ (970 : Int) := by
  rw [overflowThreshold, zpow_ofNat]

/-! ### Which numbers of the format are near a number rounded at a place -/

section

variable {x : ℚ} {m k : Nat} {q f : Int}

/-- A number with the same or a coarser last place is a multiple of the place `2^q`, so one other than the nearest multiple
is at least half a place away. -/
theorem half_place_le_of_coarser (herr : |x - m * (2 : ℚ) ^ q| ≤ (2 : ℚ) ^ q / 2) (hqf : q ≤ f) :
    (k : ℚ) * (2 : ℚ) ^ f = m * (2 : ℚ) ^ q ∨ (2 : ℚ) ^ q / 2 ≤ |x - k * (2 : ℚ) ^ f| := by
  obtain ⟨n, rfl⟩ := Int.le.dest hqf
  have hmultiple : (k : ℚ) * (2 : ℚ) ^ (q + n) = ((k * 2 ^ n : Nat) : ℚ) * (2 : ℚ) ^ q := by
    rw [zpow_add₀ two_ne_zero, zpow_natCast]
    push_cast
    ring
  rw [hmultiple]
  generalize k * 2 ^ n = j
  have hz : (0 : ℚ) < (2 : ℚ) ^ q := by positivity
  rw [abs_le] at herr
  obtain hlt | rfl | hgt := lt_trichotomy j m
  · have hgap : ((j : ℚ) + 1) * (2 : ℚ) ^ q ≤ m * (2 : ℚ) ^ q := mul_le_mul_of_nonneg_right (by exact_mod_cast hlt) hz.le
    exact .inr (le_trans (by linarith) (le_abs_self _))
  · exact .inl rfl
  · have hgap : ((m : ℚ) + 1) * (2 : ℚ) ^ q ≤ j * (2 : ℚ) ^ q := mul_le_mul_of_nonneg_right (by exact_mod_cast hgt) hz.le
    exact .inr (le_trans (by linarith) (neg_le_abs _))

/-- A number with a finer last place has 53 bits, so it is at least half a place below a number that has 53 bits at `2^q`. -/
theorem half_place_le_of_finer (hx : (2 : ℚ) ^ 52 * (2 : ℚ) ^ q ≤ x) (hk : k < 2 ^ 53) (hfq : f < q) :
    (2 : ℚ) ^ q / 2 ≤ |x - k * (2 : ℚ) ^ f| := by
  have hfine : 2 * (2 : ℚ) ^ f ≤ (2 : ℚ) ^ q := two_zpow_succ f ▸ two_zpow_le hfq
  have hbelow : (k : ℚ) * (2 : ℚ) ^ f ≤ (2 ^ 53 - 1) * (2 : ℚ) ^ f := by
    have : (k : ℚ) + 1 ≤ 2 ^ 53 := by exact_mod_cast hk
    exact mul_le_mul_of_nonneg_right (by linarith) (by positivity)
  refine le_trans ?_ (le_abs_self _)
  norm_num at hx hbelow
  linarith

/-- What is rounded at a place to the nearest multiple, with 53 bits or at the least place, and to an even one at a tie, is
rounded to the nearest number of the whole format. -/
theorem nearestEven_of_place (hplace : q = -1074 ∨ (2 : ℚ) ^ 52 * (2 : ℚ) ^ q ≤ x)
    (herr : |x - m * (2 : ℚ) ^ q| ≤ (2 : ℚ) ^ q / 2) (htie : |x - m * (2 : ℚ) ^ q| = (2 : ℚ) ^ q / 2 → m % 2 = 0) :
    NearestEven x m q := by
  intro k f hk hf _
  have hfar : (k : ℚ) * (2 : ℚ) ^ f = m * (2 : ℚ) ^ q ∨ (2 : ℚ) ^ q / 2 ≤ |x - k * (2 : ℚ) ^ f| := by
    obtain hqf | hfq := le_or_gt q f
    · exact half_place_le_of_coarser herr hqf
    · exact .inr (half_place_le_of_finer (hplace.resolve_left (by omega)) hk hfq)
  obtain hsame | hfar := hfar
  · exact ⟨by rw [hsame], fun _ => .inl hsame⟩
  · exact ⟨herr.trans hfar, fun heq => .inr (htie (le_antisymm herr (heq ▸ hfar)))⟩

/-- A carry out of the 53 bits names the same number at the next place, with an even significand. -/
theorem NearestEven.carry (h : NearestEven x (2 ^ 53) q) : NearestEven x (2 ^ 52) (q + 1) := by
  have hsame : ((2 ^ 52 : Nat) : ℚ) * (2 : ℚ) ^ (q + 1) = ((2 ^ 53 : Nat) : ℚ) * (2 : ℚ) ^ q := by
    rw [two_zpow_succ]
    push_cast
    ring
  intro k f hk hf hf'
  obtain ⟨hnear, -⟩ := h k f hk hf hf'
  rw [hsame]
  exact ⟨hnear, fun _ => .inr (by decide)⟩

/-! ### On which side of the overflow threshold -/

/-- Rounding up out of the 53 bits at the last exponent or above starts at the threshold. -/
theorem overflowThreshold_le_of_carry (herr : |x - (2 ^ 53 : Nat) * (2 : ℚ) ^ q| ≤ (2 : ℚ) ^ q / 2) (hq : 971 ≤ q) :
    overflowThreshold ≤ x := by
  have hexp : 2 * (2 : ℚ) ^ (970 : Int) ≤ (2 : ℚ) ^ q := two_zpow_succ 970 ▸ two_zpow_le hq
  rw [overflowThreshold_eq]
  rw [abs_le] at herr
  push_cast at herr
  generalize (2 : ℚ) ^ (970 : Int) = z at *
  linarith

theorem overflowThreshold_le_of_place (hx : (2 : ℚ) ^ 52 * (2 : ℚ) ^ q ≤ x) (hq : 971 < q) : overflowThreshold ≤ x := by
  have hexp : 2 * (2 * (2 : ℚ) ^ (970 : Int)) ≤ (2 : ℚ) ^ q :=
    two_zpow_succ 970 ▸ two_zpow_succ (970 + 1) ▸ two_zpow_le hq
  have hpos : (0 : ℚ) < (2 : ℚ) ^ (970 : Int) := by positivity
  rw [overflowThreshold_eq]
  generalize (2 : ℚ) ^ (970 : Int) = z at *
  linarith

theorem lt_overflowThreshold_of_place (hx : x < (2 : ℚ) ^ 53 * (2 : ℚ) ^ q) (hq : q ≤ 970) : x < overflowThreshold := by
  have hexp : (2 : ℚ) ^ q ≤ (2 : ℚ) ^ (970 : Int) := two_zpow_le hq
  have hpos : (0 : ℚ) < (2 : ℚ) ^ (970 : Int) := by positivity
  rw [overflowThreshold_eq]
  generalize (2 : ℚ) ^ (970 : Int) = z at *
  linarith

/-- At the last exponent a ratio that rounds to 53 bits is below the threshold: on the threshold the tie would round up. -/
theorem lt_overflowThreshold_of_last (hm : m < 2 ^ 53) (herr : |x - m * (2 : ℚ) ^ (971 : Int)| ≤ (2 : ℚ) ^ (971 : Int) / 2)
    (htie : |x - m * (2 : ℚ) ^ (971 : Int)| = (2 : ℚ) ^ (971 : Int) / 2 → m % 2 = 0) : x < overflowThreshold := by
  have hpos : (0 : ℚ) < (2 : ℚ) ^ (970 : Int) := by positivity
  rw [show (2 : ℚ) ^ (971 : Int) = 2 * (2 : ℚ) ^ (970 : Int) from two_zpow_succ 970] at herr htie
  rw [overflowThreshold_eq]
  generalize (2 : ℚ) ^ (970 : Int) = z at *
  have hupper := (abs_le.mp herr).2
  obtain hlt | rfl : m + 1 < 2 ^ 53 ∨ m = 2 ^ 53 - 1 := by omega
  · have hgap : ((m : ℚ) + 1 + 1) * z ≤ 2 ^ 53 * z :=
      mul_le_mul_of_nonneg_right (by exact_mod_cast hlt) hpos.le
    linarith
  · push_cast at hupper htie
    refine lt_of_le_of_ne (by linarith) fun heq => ?_
    have heven := htie (by rw [heq, abs_of_nonneg] <;> linarith)
    omega

end

/-! ### The conversion -/

/-- What the conversion answers to a ratio: infinity from the threshold on, and below it the nearest number of the format. -/
theorem ofRatio_correct (num den : Nat) (hd : 0 < den) :
    (overflowThreshold ≤ (num : ℚ) / den ∧ ∀ neg, F64.ofRatio neg num den = .inf neg) ∨
    ((num : ℚ) / den < overflowThreshold ∧ ∃ m e, InFormat m e ∧ NearestEven ((num : ℚ) / den) m e ∧
      ∀ neg, F64.ofRatio neg num den = .fin neg m e) := by
  obtain rfl | hn := Nat.eq_zero_or_pos num
  · refine .inr ⟨?_, 0, -1074, ⟨by decide, by decide, by decide, .inr rfl⟩, ?_,
      fun neg => by simp [F64.ofRatio, F64.minExp]⟩
    · norm_num [overflowThreshold]
    · exact nearestEven_of_place (.inl rfl) (by simp; positivity) (fun _ => rfl)
  obtain ⟨m, q, hq, hm, hnormal, hplace, hlt, herr, htie, hrun⟩ := ofRatio_place num den hn hd
  have hnearest := nearestEven_of_place hplace herr htie
  by_cases hcarry : m = 2 ^ 53
  · subst hcarry
    simp only [if_true] at hrun
    by_cases hbig : 971 < q + 1
    · simp only [if_pos hbig] at hrun
      exact .inl ⟨overflowThreshold_le_of_carry herr (by omega), hrun⟩
    · simp only [if_neg hbig] at hrun
      exact .inr ⟨lt_overflowThreshold_of_place hlt (by omega), 2 ^ 52, q + 1,
        ⟨by decide, by omega, by omega, .inl (le_refl _)⟩, hnearest.carry, hrun⟩
  · simp only [if_neg hcarry] at hrun
    by_cases hbig : 971 < q
    · simp only [if_pos hbig] at hrun
      exact .inl ⟨overflowThreshold_le_of_place (hplace.resolve_left (by omega)) hbig, hrun⟩
    · simp only [if_neg hbig] at hrun
      refine .inr ⟨?_, m, q, ⟨by omega, hq, by omega, hnormal⟩, hnearest, hrun⟩
      obtain hlast | rfl : q ≤ 970 ∨ q = 971 := by omega
      · exact lt_overflowThreshold_of_place hlt hlast
      · exact lt_overflowThreshold_of_last (by omega) herr htie

/-- Settles O56, from what the conversion answers on each side of the overflow threshold. -/
theorem roundingIsToNearestEven : Obligations.RoundingIsToNearestEven := by
  unfold Obligations.RoundingIsToNearestEven
  intro neg num den hd x
  refine ⟨fun h => by simp [h, F64.ofRatio, F64.minExp], ?_⟩
  obtain ⟨hle, hrun⟩ | ⟨hlt, m, e, ⟨hm, hmin, hmax, hnormal⟩, hnearest, hrun⟩ := ofRatio_correct num den hd
  · refine ⟨fun h => absurd h (not_lt.mpr hle), fun _ => hrun neg, fun s m e h => ?_⟩
    rw [hrun neg] at h
    cases h
  · refine ⟨fun _ => ⟨m, e, hrun neg⟩, fun h => absurd hlt (not_lt.mpr h), fun s m' e' h => ?_⟩
    rw [hrun neg] at h
    cases h
    exact ⟨rfl, hm, hmin, hmax, hnormal, hnearest⟩

end Sys2Proof
end

