-- ==== Sys2Proof/Proofs/Binary64Error.lean ====
section
/-! How far the generator's binary64 operations, and the library's `exp` and `sin`, stray from the real numbers (rules R124,
R128). -/

namespace Sys2Proof

/-- The binary64 number `r` is finite and within `ε` of the real number `a`. -/
def F64.Near (r : F64) (a ε : ℝ) : Prop := ∃ c : ℚ, r.value = some c ∧ |(c : ℝ) - a| ≤ ε

theorem F64.Near.mono {r : F64} {a ε η : ℝ} (h : r.Near a ε) (hle : ε ≤ η) : r.Near a η := by
  obtain ⟨c, hc, herr⟩ := h
  exact ⟨c, hc, herr.trans hle⟩

/-- What is within `ε` of a number is at most `M`, where that number and `ε` are together. -/
theorem abs_le_of_near {c a ε M : ℝ} (h : |c - a| ≤ ε) (hM : |a| + ε ≤ M) : |c| ≤ M := by
  have := abs_sub_abs_le_abs_sub c a
  linarith

theorem two_zpow_minExp_le {K : Type*} [Field K] [LinearOrder K] [IsStrictOrderedRing K] :
    (2 : K) ^ (-1074 : ℤ) ≤ 1 / 2 ^ 52 := by
  calc (2 : K) ^ (-1074 : ℤ) ≤ (2 : K) ^ (-52 : ℤ) := zpow_le_zpow_right₀ one_le_two (by norm_num)
    _ = 1 / 2 ^ 52 := by norm_num

/-- The rounding of one operation whose exact result is within `ε` of `a`: it adds the rounding's own error, which the size `M`
of the result bounds. -/
theorem near_of_roundsTo {r : F64} {c : ℚ} {a ε M : ℝ} (hround : |c| ≤ 2 ^ 200 → roundsTo r c) (hc : |(c : ℝ) - a| ≤ ε)
    (hsize : |a| + ε ≤ M) (h1 : 1 ≤ M) (h2 : M ≤ 2 ^ 200) : r.Near a (ε + M / 2 ^ 51) := by
  have hcM : |(c : ℝ)| ≤ M := abs_le_of_near hc hsize
  obtain ⟨v, hv, herr⟩ := hround (by exact_mod_cast hcM.trans h2)
  refine ⟨v, hv, ?_⟩
  have hunit : |v - c| ≤ 1 / 2 ^ 52 * |c| + 1 / 2 ^ 52 := by
    rw [show (2 : ℚ) ^ (-52 : ℤ) = 1 / 2 ^ 52 by norm_num] at herr
    exact herr.trans (add_le_add_right two_zpow_minExp_le _)
  rw [← Rat.cast_le (K := ℝ)] at hunit
  push_cast at hunit
  calc |(v : ℝ) - a| ≤ |(v : ℝ) - c| + |(c : ℝ) - a| := abs_sub_le _ _ _
    _ ≤ ε + M / 2 ^ 51 := by linarith

theorem near_ofRatio (neg : Bool) {num den : Nat} {M : ℝ} (hd : 0 < den) (hsize : (num : ℝ) / den ≤ M) (h1 : 1 ≤ M)
    (h2 : M ≤ 2 ^ 200) : (F64.ofRatio neg num den).Near (signFactor neg * ((num : ℝ) / den)) (M / 2 ^ 51) := by
  have hle : (num : ℚ) / den ≤ 2 ^ 200 := by
    rw [← Rat.cast_le (K := ℝ)]
    push_cast
    exact hsize.trans h2
  have hnear := near_of_roundsTo (a := signFactor neg * ((num : ℝ) / den)) (ε := 0)
    (fun _ => ofRatio_roundsTo neg num den hd hle) (by push_cast; simp) ?_ h1 h2
  · rwa [zero_add] at hnear
  · have hsign : |(signFactor neg : ℝ)| = 1 := by exact_mod_cast abs_signFactor neg
    rw [abs_mul, hsign, one_mul, add_zero, abs_of_nonneg (by positivity)]
    exact hsize

theorem near_ofInt {n : Int} {M : ℝ} (hsize : |(n : ℝ)| ≤ M) (h1 : 1 ≤ M) (h2 : M ≤ 2 ^ 200) :
    (F64.ofInt n).Near n (M / 2 ^ 51) := by
  have hnear := near_of_roundsTo (a := n) (ε := 0) (ofInt_roundsTo n) (by simp) (by linarith) h1 h2
  rwa [zero_add] at hnear

section

variable {x y : F64} {a b ε δ η M : ℝ} (hx : x.Near a ε) (hy : y.Near b δ)

include hx hy

theorem F64.Near.sub (hsize : |a - b| + (ε + δ) ≤ M) (h1 : 1 ≤ M) (h2 : M ≤ 2 ^ 200) :
    (x.sub y).Near (a - b) (ε + δ + M / 2 ^ 51) := by
  obtain ⟨c, hc, hca⟩ := hx
  obtain ⟨d, hd, hdb⟩ := hy
  refine near_of_roundsTo (sub_roundsTo hc hd) ?_ hsize h1 h2
  push_cast
  rw [sub_sub_sub_comm]
  exact (abs_sub _ _).trans (add_le_add hca hdb)

/-- An error of the first factor counts as often as the second factor is large, and the other way round. -/
theorem F64.Near.mul (hη : |a| * δ + (|b| + δ) * ε ≤ η) (hsize : |a * b| + η ≤ M) (h1 : 1 ≤ M) (h2 : M ≤ 2 ^ 200) :
    (x.mul y).Near (a * b) (η + M / 2 ^ 51) := by
  obtain ⟨c, hc, hca⟩ := hx
  obtain ⟨d, hd, hdb⟩ := hy
  refine near_of_roundsTo (mul_roundsTo hc hd) (le_trans ?_ hη) hsize h1 h2
  have hdsize : |(d : ℝ)| ≤ |b| + δ := abs_le_of_near hdb (le_refl _)
  have hdsize0 : 0 ≤ |b| + δ := (abs_nonneg _).trans hdsize
  push_cast
  calc |(c : ℝ) * d - a * b| = |a * (d - b) + d * (c - a)| := by ring_nf
    _ ≤ |a| * |(d : ℝ) - b| + |(d : ℝ)| * |(c : ℝ) - a| := by
      rw [← abs_mul, ← abs_mul]
      exact abs_add_le _ _
    _ ≤ |a| * δ + (|b| + δ) * ε := by gcongr

end

/-- The quotient of what is within `ε` of `q * b` by what is within `δ` of `b > δ`. -/
theorem F64.Near.div {x y : F64} {q b ε δ η M : ℝ} (hx : x.Near (q * b) ε) (hy : y.Near b δ) (hδ : δ < b)
    (hη : ε + |q| * δ ≤ η * (b - δ)) (hη0 : 0 ≤ η) (hsize : |q| + η ≤ M) (h1 : 1 ≤ M) (h2 : M ≤ 2 ^ 200) :
    (x.div y).Near q (η + M / 2 ^ 51) := by
  obtain ⟨c, hc, hca⟩ := hx
  obtain ⟨d, hd, hdb⟩ := hy
  have hdlow : b - δ ≤ d := by linarith [(abs_le.mp hdb).1]
  have hdpos : (0 : ℝ) < d := by linarith
  have hd0 : d ≠ 0 := by exact_mod_cast hdpos.ne'
  refine near_of_roundsTo (div_roundsTo hc hd hd0) ?_ hsize h1 h2
  push_cast
  rw [show (c : ℝ) / d - q = ((c - q * b) - q * (d - b)) / d by field_simp; ring, abs_div, abs_of_pos hdpos,
    div_le_iff₀ hdpos]
  calc |((c : ℝ) - q * b) - q * (d - b)| ≤ |(c : ℝ) - q * b| + |q| * |(d : ℝ) - b| := by
        rw [← abs_mul]
        exact abs_sub _ _
    _ ≤ ε + |q| * δ := by gcongr
    _ ≤ η * (b - δ) := hη
    _ ≤ η * d := by gcongr

/-! ### The library -/

/-- A thousand units in the last place of a number that is at most `B >= 1`. -/
theorem le_of_le_ulps {e v B : ℝ} (h : e ≤ (1000 : Nat) * max ((2 : ℝ) ^ (-52 : ℤ) * |v|) ((2 : ℝ) ^ (-1074 : ℤ)))
    (hv : |v| ≤ B) (hB : 1 ≤ B) : e ≤ 1000 * B / 2 ^ 52 := by
  have hulp : max ((2 : ℝ) ^ (-52 : ℤ) * |v|) ((2 : ℝ) ^ (-1074 : ℤ)) ≤ B / 2 ^ 52 := by
    refine max_le ?_ (two_zpow_minExp_le.trans (by gcongr))
    rw [show (2 : ℝ) ^ (-52 : ℤ) = 1 / 2 ^ 52 by norm_num]
    linarith
  refine (h.trans (mul_le_mul_of_nonneg_left hulp (Nat.cast_nonneg _))).trans_eq ?_
  push_cast
  ring

theorem abs_exp_sub_exp_le {v s : ℝ} (h : |v - s| ≤ 1) : |Real.exp v - Real.exp s| ≤ Real.exp s * (2 * |v - s|) := by
  have hfactor : Real.exp v - Real.exp s = Real.exp s * (Real.exp (v - s) - 1) := by
    rw [mul_sub, ← Real.exp_add, mul_one, add_sub_cancel]
  rw [hfactor, abs_mul, Real.abs_exp]
  exact mul_le_mul_of_nonneg_left (Real.abs_exp_sub_one_le h) (Real.exp_pos s).le

section

variable {exp sin : F64 → F64} (hlib : Machine.LibraryWithin 1000 exp sin) {x : F64} {a ε : ℝ} (hx : x.Near a ε)

include hlib hx

theorem F64.Near.libSin (hrange : |a| + ε ≤ 2) : (sin x).Near (Real.sin a) (ε + 1000 / 2 ^ 52) := by
  obtain ⟨v, hv, hva⟩ := hx
  have hv2 : |v| ≤ 2 := by exact_mod_cast abs_le_of_near hva hrange
  obtain ⟨-, y, hy, herr⟩ := hlib x v hv hv2
  refine ⟨y, hy, ?_⟩
  have herr := le_of_le_ulps herr (Real.abs_sin_le_one v) (le_refl 1)
  have hlipschitz := Real.abs_sin_sub_sin_le v a
  calc |(y : ℝ) - Real.sin a| ≤ |(y : ℝ) - Real.sin v| + |Real.sin v - Real.sin a| := abs_sub_le _ _ _
    _ ≤ ε + 1000 / 2 ^ 52 := by linarith

theorem F64.Near.libExp (ha : |a| ≤ 1) (hε : ε ≤ 1 / 10) : (exp x).Near (Real.exp a) (6 * ε + 4000 / 2 ^ 52) := by
  obtain ⟨v, hv, hva⟩ := hx
  have hv2 : |v| ≤ 2 := by exact_mod_cast abs_le_of_near hva (show |a| + ε ≤ 2 by linarith)
  obtain ⟨⟨y, hy, herr⟩, -⟩ := hlib x v hv hv2
  refine ⟨y, hy, ?_⟩
  have hexp : Real.exp a ≤ 3 := (Real.exp_le_exp.mpr (abs_le.mp ha).2).trans Real.exp_one_lt_three.le
  have hdiff : |Real.exp v - Real.exp a| ≤ 6 * ε := by
    calc |Real.exp v - Real.exp a| ≤ Real.exp a * (2 * |(v : ℝ) - a|) := abs_exp_sub_exp_le (by linarith)
      _ ≤ 3 * (2 * ε) := by gcongr
      _ = 6 * ε := by ring
  have hsize : |Real.exp v| ≤ 4 := abs_le_of_near hdiff (by rw [Real.abs_exp]; linarith)
  have herr := le_of_le_ulps herr hsize (by norm_num)
  calc |(y : ℝ) - Real.exp a| ≤ |(y : ℝ) - Real.exp v| + |Real.exp v - Real.exp a| := abs_sub_le _ _ _
    _ ≤ 6 * ε + 4000 / 2 ^ 52 := by linarith

end

end Sys2Proof
end

