-- ==== Sys2Proof/Proofs/ExactCurve.lean ====
section
/-! The exact 8-bit curve of rule R123, in the real numbers: it rises over the period, and its samples stay away from the
integers (rule R128). -/

namespace Sys2Proof

/-- The curve of rule R123 in exact arithmetic. -/
noncomputable def exactCurve8 (period t : ℝ) : ℝ :=
  (Real.exp (Real.sin ((t - period / 2) * Real.pi / period)) - 0.36787944) * 108

/-- The samples of the source's table `lut8`, without its sentinel. -/
def sourceSample (k : Nat) : Nat := [0, 3, 13, 33, 68, 118, 179, 232].getD k 0

/-! ### Over the period -/

section

variable {period : ℝ}

/-- Over the period the sine's argument runs over half a period of the sine, where the sine rises. -/
theorem exactCurve8_strictMonoOn (hp : 0 < period) : StrictMonoOn (exactCurve8 period) (Set.Icc 0 period) := by
  have hscale : 0 < Real.pi / period := div_pos Real.pi_pos hp
  have harg (t : ℝ) : (t - period / 2) * Real.pi / period = t * (Real.pi / period) - Real.pi / 2 := by field_simp
  have hmem {t : ℝ} (ht : t ∈ Set.Icc 0 period) :
      t * (Real.pi / period) - Real.pi / 2 ∈ Set.Icc (-(Real.pi / 2)) (Real.pi / 2) := by
    obtain ⟨h0, hle⟩ := ht
    have hlow : 0 ≤ t * (Real.pi / period) := mul_nonneg h0 hscale.le
    have hhigh : t * (Real.pi / period) ≤ period * (Real.pi / period) := mul_le_mul_of_nonneg_right hle hscale.le
    rw [mul_div_cancel₀ Real.pi hp.ne'] at hhigh
    constructor <;> linarith
  intro s hs t ht hst
  have hsin := Real.strictMonoOn_sin (hmem hs) (hmem ht) (by linarith [mul_lt_mul_of_pos_right hst hscale])
  have hexp := Real.exp_lt_exp.mpr hsin
  simp only [exactCurve8, harg]
  linarith

/-- At a fraction of the period the curve does not depend on the period. -/
theorem exactCurve8_at_fraction (hp : 0 < period) (x : ℝ) :
    exactCurve8 period (x * period / 8) = (Real.exp (-Real.cos (x * (Real.pi / 8))) - 0.36787944) * 108 := by
  have harg : (x * period / 8 - period / 2) * Real.pi / period = x * (Real.pi / 8) - Real.pi / 2 := by
    field_simp
  rw [exactCurve8, harg, Real.sin_sub_pi_div_two]

theorem exactCurve8_first (hp : 0 < period) : exactCurve8 period 0 = (Real.exp (-1) - 0.36787944) * 108 := by
  simpa using exactCurve8_at_fraction hp 0

theorem exactCurve8_last (hp : 0 < period) : exactCurve8 period period = (Real.exp 1 - 0.36787944) * 108 := by
  have h := exactCurve8_at_fraction hp 8
  rwa [mul_div_cancel_left₀ period (by norm_num), mul_div_cancel₀ Real.pi (by norm_num), Real.cos_pi, neg_neg] at h

theorem exactCurve8_first_near (hp : 0 < period) : |exactCurve8 period 0 - 1.3e-7| < 1e-8 := by
  have hlow := Real.exp_neg_one_gt_d9
  have hhigh := Real.exp_neg_one_lt_d9
  rw [exactCurve8_first hp, abs_lt]
  constructor <;> linarith

theorem exactCurve8_last_near (hp : 0 < period) : |exactCurve8 period period - 253.84| < 0.01 := by
  have hlow := Real.exp_one_gt_d9
  have hhigh := Real.exp_one_lt_d9
  rw [exactCurve8_last hp, abs_lt]
  constructor <;> linarith

end

/-! ### The cosines of the samples and their exponentials -/

theorem sqrt_two_mem : 1.414213562 < √(2 : ℝ) ∧ √(2 : ℝ) < 1.414213563 :=
  ⟨Real.lt_sqrt_of_sq_lt (by norm_num), (Real.sqrt_lt' (by norm_num)).mpr (by norm_num)⟩

theorem cos_sample_one : 0.92387953 ≤ Real.cos (1 * (Real.pi / 8)) ∧ Real.cos (1 * (Real.pi / 8)) ≤ 0.92387954 := by
  obtain ⟨hlow, hhigh⟩ := sqrt_two_mem
  rw [one_mul, Real.cos_pi_div_eight]
  have hl : (1.84775906 : ℝ) ≤ √(2 + √2) := Real.le_sqrt_of_sq_le (by linarith)
  have hh : √(2 + √2) ≤ (1.84775908 : ℝ) := Real.sqrt_le_iff.mpr ⟨by norm_num, by linarith⟩
  constructor <;> linarith

theorem cos_sample_two : 0.70710678 ≤ Real.cos (2 * (Real.pi / 8)) ∧ Real.cos (2 * (Real.pi / 8)) ≤ 0.70710679 := by
  obtain ⟨hlow, hhigh⟩ := sqrt_two_mem
  rw [show 2 * (Real.pi / 8) = Real.pi / 4 by ring, Real.cos_pi_div_four]
  constructor <;> linarith

theorem cos_sample_three : 0.38268343 ≤ Real.cos (3 * (Real.pi / 8)) ∧ Real.cos (3 * (Real.pi / 8)) ≤ 0.38268344 := by
  obtain ⟨hlow, hhigh⟩ := sqrt_two_mem
  rw [show 3 * (Real.pi / 8) = Real.pi / 2 - Real.pi / 8 by ring, Real.cos_pi_div_two_sub, Real.sin_pi_div_eight]
  have hl : (0.76536686 : ℝ) ≤ √(2 - √2) := Real.le_sqrt_of_sq_le (by linarith)
  have hh : √(2 - √2) ≤ (0.76536688 : ℝ) := Real.sqrt_le_iff.mpr ⟨by norm_num, by linarith⟩
  constructor <;> linarith

theorem cos_sample_four : Real.cos (4 * (Real.pi / 8)) = 0 := by
  rw [show 4 * (Real.pi / 8) = Real.pi / 2 by ring, Real.cos_pi_div_two]

/-- The sample points lie symmetrically about the middle of the period. -/
theorem neg_cos_sample_reflect {x y : ℝ} (h : x + y = 8) :
    -Real.cos (x * (Real.pi / 8)) = Real.cos (y * (Real.pi / 8)) := by
  rw [← Real.cos_pi_sub]
  congr 1
  linear_combination -(Real.pi / 8) * h

/-- The exponential of a number between `a` and `b` in the unit interval, by ten terms of its series. -/
theorem exp_mem_of_series {x a b lo hi : ℝ} (h : a ≤ x ∧ x ≤ b) (ha : 0 ≤ a) (hb : b ≤ 1)
    (hlo : lo < ∑ i ∈ Finset.range 10, a ^ i / (i.factorial : ℝ))
    (hhi : ∑ i ∈ Finset.range 10, b ^ i / (i.factorial : ℝ) +
      b ^ 10 * ((10 : Nat) + 1) / ((10 : Nat).factorial * (10 : Nat)) < hi) :
    lo < Real.exp x ∧ Real.exp x < hi := by
  obtain ⟨hax, hxb⟩ := h
  constructor
  · exact hlo.trans_le ((Real.sum_le_exp_of_nonneg ha 10).trans (Real.exp_le_exp.mpr hax))
  · exact ((Real.exp_le_exp.mpr hxb).trans (Real.exp_bound' (by linarith) hb (by norm_num))).trans_lt hhi

theorem exp_cos_sample_one :
    2.519 < Real.exp (Real.cos (1 * (Real.pi / 8))) ∧ Real.exp (Real.cos (1 * (Real.pi / 8))) < 2.5191 :=
  exp_mem_of_series cos_sample_one (by norm_num) (by norm_num) (by norm_num [Finset.sum_range_succ, Nat.factorial])
    (by norm_num [Finset.sum_range_succ, Nat.factorial])

theorem exp_cos_sample_two :
    2.0281 < Real.exp (Real.cos (2 * (Real.pi / 8))) ∧ Real.exp (Real.cos (2 * (Real.pi / 8))) < 2.0282 :=
  exp_mem_of_series cos_sample_two (by norm_num) (by norm_num) (by norm_num [Finset.sum_range_succ, Nat.factorial])
    (by norm_num [Finset.sum_range_succ, Nat.factorial])

theorem exp_cos_sample_three :
    1.466213 < Real.exp (Real.cos (3 * (Real.pi / 8))) ∧ Real.exp (Real.cos (3 * (Real.pi / 8))) < 1.466215 :=
  exp_mem_of_series cos_sample_three (by norm_num) (by norm_num) (by norm_num [Finset.sum_range_succ, Nat.factorial])
    (by norm_num [Finset.sum_range_succ, Nat.factorial])

theorem exp_neg_mem_of_mem {x lo hi : ℝ} (h : lo < Real.exp x ∧ Real.exp x < hi) (hlo : 0 < lo) :
    hi⁻¹ < Real.exp (-x) ∧ Real.exp (-x) < lo⁻¹ := by
  obtain ⟨hlow, hhigh⟩ := h
  rw [Real.exp_neg]
  exact ⟨inv_strictAnti₀ (Real.exp_pos x) hhigh, inv_strictAnti₀ hlo hlow⟩

/-- A sample above the middle has the exponential of the sample's mirror image, with the sign of the cosine turned. -/
theorem exp_mem_of_reflect {x y lo hi : ℝ} (hxy : x + y = 8)
    (h : lo < Real.exp (Real.cos (y * (Real.pi / 8))) ∧ Real.exp (Real.cos (y * (Real.pi / 8))) < hi) :
    lo < Real.exp (-Real.cos (x * (Real.pi / 8))) ∧ Real.exp (-Real.cos (x * (Real.pi / 8))) < hi := by
  rwa [neg_cos_sample_reflect hxy]

/-! ### The samples -/

section

variable {period : ℝ}

/-- Where the exponential of a sample lies, the sample lies, away from the integers around it. -/
theorem sample_mem_of_exp_mem (hp : 0 < period) {k : Nat} {x lo hi : ℝ} (hk : (k : ℝ) = x)
    (h : lo < Real.exp (-Real.cos (x * (Real.pi / 8))) ∧ Real.exp (-Real.cos (x * (Real.pi / 8))) < hi)
    (hlo : sourceSample k + 0.0718 ≤ (lo - 0.36787944) * 108) (hhi : (hi - 0.36787944) * 108 ≤ sourceSample k + 0.9282) :
    sourceSample k + 0.0718 < exactCurve8 period (k * period / 8) ∧
      exactCurve8 period (k * period / 8) < sourceSample k + 0.9282 := by
  obtain ⟨hlow, hhigh⟩ := h
  rw [exactCurve8_at_fraction hp, hk]
  constructor <;> linarith

/-- Each sample but the first is an entry of the source's table and a fraction well inside the unit interval (rule R128). -/
theorem exactCurve8_sample_mem (hp : 0 < period) {k : Nat} (h1 : 1 ≤ k) (h8 : k < 8) :
    sourceSample k + 0.0718 < exactCurve8 period (k * period / 8) ∧
      exactCurve8 period (k * period / 8) < sourceSample k + 0.9282 := by
  interval_cases k
  · exact sample_mem_of_exp_mem hp Nat.cast_one (exp_neg_mem_of_mem exp_cos_sample_one (by norm_num))
      (by norm_num [sourceSample]) (by norm_num [sourceSample])
  · exact sample_mem_of_exp_mem hp Nat.cast_ofNat (exp_neg_mem_of_mem exp_cos_sample_two (by norm_num))
      (by norm_num [sourceSample]) (by norm_num [sourceSample])
  · exact sample_mem_of_exp_mem hp Nat.cast_ofNat (exp_neg_mem_of_mem exp_cos_sample_three (by norm_num))
      (by norm_num [sourceSample]) (by norm_num [sourceSample])
  · exact sample_mem_of_exp_mem hp Nat.cast_ofNat (lo := 0.999) (hi := 1.001) (by norm_num [cos_sample_four])
      (by norm_num [sourceSample]) (by norm_num [sourceSample])
  · exact sample_mem_of_exp_mem hp Nat.cast_ofNat (exp_mem_of_reflect (by norm_num) exp_cos_sample_three)
      (by norm_num [sourceSample]) (by norm_num [sourceSample])
  · exact sample_mem_of_exp_mem hp Nat.cast_ofNat (exp_mem_of_reflect (by norm_num) exp_cos_sample_two)
      (by norm_num [sourceSample]) (by norm_num [sourceSample])
  · exact sample_mem_of_exp_mem hp Nat.cast_ofNat (exp_mem_of_reflect (by norm_num) exp_cos_sample_one)
      (by norm_num [sourceSample]) (by norm_num [sourceSample])

/-- What lies between an integer and the next, 0.0718 away from both, is as far away from every integer. -/
theorem far_of_between {v : ℝ} {n₀ : Nat} (h : n₀ + 0.0718 < v ∧ v < n₀ + 0.9282) (n : Int) : 0.0718 < |v - n| := by
  obtain ⟨hlow, hhigh⟩ := h
  obtain hle | hgt := le_or_gt n n₀
  · have hn : (n : ℝ) ≤ n₀ := by exact_mod_cast hle
    exact lt_of_lt_of_le (by linarith) (le_abs_self _)
  · have hn : (n₀ : ℝ) + 1 ≤ n := by exact_mod_cast hgt
    exact lt_of_lt_of_le (by linarith) (neg_le_abs _)

end

end Sys2Proof
end

