-- ==== Sys2Proof/Proofs/CurveTable.lean ====
section
/-! The generator's binary64 samples of the 8-bit curve and the table they give (rules R123, R128). -/

namespace Sys2Proof.Machine

/-! ### The samples -/

theorem piF64_near : piF64.Near Real.pi (5 / 2 ^ 51) := by
  obtain ⟨c, hc, herr⟩ := near_ofRatio (M := 4) false (num := 884279719003555) (den := 2 ^ 48) (by positivity)
    (by norm_num) (by norm_num) (by norm_num)
  have hlow := Real.pi_gt_d20
  have hhigh := Real.pi_lt_d20
  refine ⟨c, hc, ?_⟩
  norm_num [abs_le] at herr ⊢
  constructor <;> linarith

section

variable {period : Int} (hp : 0 < period) (hp' : period < 2 ^ 32)

include hp hp'

theorem period_bounds : (1 : ℝ) ≤ period ∧ (period : ℝ) < 2 ^ 32 := ⟨by exact_mod_cast hp, by exact_mod_cast hp'⟩

theorem ofInt_period_near : (F64.ofInt period).Near period (period / 2 ^ 51) := by
  obtain ⟨hp1, hp2⟩ := period_bounds hp hp'
  exact near_ofInt (abs_of_pos (by linarith)).le hp1 (by linarith)

theorem half_period_near :
    ((F64.ofInt period).div (F64.ofInt 2)).Near (period / 2) (5 / 2 * period / 2 ^ 51) := by
  obtain ⟨hp1, hp2⟩ := period_bounds hp hp'
  have hperiod := ofInt_period_near hp hp'
  have htwo : (F64.ofInt 2).Near 2 (2 / 2 ^ 51) := near_ofInt (by norm_num) (by norm_num) (by norm_num)
  generalize (period : ℝ) = p at *
  have habs : |p / 2| = p / 2 := abs_of_pos (by linarith)
  rw [← div_mul_cancel₀ p two_ne_zero] at hperiod
  refine (hperiod.div htwo (η := 3 / 2 * p / 2 ^ 51) (M := p) (by norm_num) ?_ ?_ ?_ hp1 (by linarith)).mono ?_ <;> linarith

theorem sampleOffset_near {k : Nat} (hk : k ≤ 8) : (sampleOffset period 8 k).Near (k * period / 8) (period / 2 ^ 51) := by
  obtain ⟨hp1, hp2⟩ := period_bounds hp hp'
  have habs : ((k * period.natAbs : Nat) : ℝ) / (8 : Nat) = k * period / 8 := by
    rw [Nat.cast_mul, Nat.cast_natAbs, abs_of_pos hp]
    rfl
  have hsize : (k : ℝ) * period / 8 ≤ period := by
    have : (k : ℝ) * period ≤ 8 * period := mul_le_mul_of_nonneg_right (by exact_mod_cast hk) (by linarith)
    linarith
  have hnear := near_ofRatio false (by decide) (habs.trans_le hsize) hp1 (by linarith)
  rwa [habs, signFactor_false, Int.cast_one, one_mul, ← decide_eq_false (not_lt.mpr hp.le)] at hnear

theorem abs_centred_offset_le {k : Nat} (hk : k ≤ 8) : |(k : ℝ) * period / 8 - period / 2| ≤ period / 2 := by
  obtain ⟨hp1, -⟩ := period_bounds hp hp'
  have hlow : 0 ≤ (k : ℝ) * period := mul_nonneg (Nat.cast_nonneg k) (by linarith)
  have hhigh : (k : ℝ) * period ≤ 8 * period := mul_le_mul_of_nonneg_right (by exact_mod_cast hk) (by linarith)
  rw [abs_le]
  constructor <;> linarith

theorem abs_scaled_offset_le {k : Nat} (hk : k ≤ 8) :
    |((k : ℝ) * period / 8 - period / 2) * Real.pi| ≤ 1.6 * period := by
  obtain ⟨hp1, -⟩ := period_bounds hp hp'
  have hpi : |Real.pi| ≤ 3.15 := by rw [abs_of_pos Real.pi_pos]; exact Real.pi_lt_d2.le
  rw [abs_mul]
  exact (mul_le_mul (abs_centred_offset_le hp hp' hk) hpi (abs_nonneg _) (by linarith)).trans (by linarith)

theorem abs_argument_le {k : Nat} (hk : k ≤ 8) : |((k : ℝ) * period / 8 - period / 2) * Real.pi / period| ≤ 1.6 := by
  have hpos : (0 : ℝ) < period := by exact_mod_cast hp
  rw [abs_div, abs_of_pos hpos, div_le_iff₀ hpos]
  exact abs_scaled_offset_le hp hp' hk

theorem centred_offset_near {k : Nat} (hk : k ≤ 8) :
    ((sampleOffset period 8 k).sub ((F64.ofInt period).div (F64.ofInt 2))).Near (k * period / 8 - period / 2)
      (9 / 2 * period / 2 ^ 51) := by
  obtain ⟨hp1, hp2⟩ := period_bounds hp hp'
  have hsize := abs_centred_offset_le hp hp' hk
  refine ((sampleOffset_near hp hp' hk).sub (half_period_near hp hp') (M := period) ?_ hp1 ?_).mono ?_ <;> linarith

theorem scaled_offset_near {k : Nat} (hk : k ≤ 8) :
    (((sampleOffset period 8 k).sub ((F64.ofInt period).div (F64.ofInt 2))).mul piF64).Near
      ((k * period / 8 - period / 2) * Real.pi) (23 * period / 2 ^ 51) := by
  obtain ⟨hp1, hp2⟩ := period_bounds hp hp'
  have hsize := abs_centred_offset_le hp hp' hk
  have hprodSize := abs_scaled_offset_le hp hp' hk
  have hpi : |Real.pi| + 5 / 2 ^ 51 ≤ 4 := by
    rw [abs_of_pos Real.pi_pos]
    linarith [Real.pi_lt_d2]
  have herr : |(k : ℝ) * period / 8 - period / 2| * (5 / 2 ^ 51) + (|Real.pi| + 5 / 2 ^ 51) * (9 / 2 * period / 2 ^ 51) ≤
      21 * period / 2 ^ 51 :=
    (add_le_add (mul_le_mul_of_nonneg_right hsize (by norm_num)) (mul_le_mul_of_nonneg_right hpi (by linarith))).trans
      (by linarith)
  refine ((centred_offset_near hp hp' hk).mul piF64_near herr (M := 2 * period) ?_ ?_ ?_).mono ?_ <;> linarith

/-- The sine's argument: up to here each operation's error is in proportion to the period, and the last one divides by it. -/
theorem argument_near {k : Nat} (hk : k ≤ 8) :
    ((((sampleOffset period 8 k).sub ((F64.ofInt period).div (F64.ofInt 2))).mul piF64).div (F64.ofInt period)).Near
      ((k * period / 8 - period / 2) * Real.pi / period) (27 / 2 ^ 51) := by
  obtain ⟨hp1, -⟩ := period_bounds hp hp'
  have hsize := abs_argument_le hp hp' hk
  have hprod := scaled_offset_near hp hp' hk
  rw [← div_mul_cancel₀ (((k : ℝ) * period / 8 - period / 2) * Real.pi) (show (period : ℝ) ≠ 0 by linarith)] at hprod
  have herr := mul_le_mul_of_nonneg_right hsize (show (0 : ℝ) ≤ period / 2 ^ 51 by linarith)
  refine (hprod.div (ofInt_period_near hp hp') (η := 25 / 2 ^ 51) (M := 2) ?_ ?_ ?_ ?_ ?_ ?_).mono ?_ <;> linarith

/-- For a library within 1000 units in the last place, each sample is close to the exact curve (rule R128). -/
theorem curve8_near {exp sin : F64 → F64} (hlib : LibraryWithin 1000 exp sin) {k : Nat} (hk : k ≤ 8) :
    (curve8 exp sin (sampleOffset period 8 k) (F64.ofInt period)).Near (exactCurve8 period (k * period / 8))
      (3 / 10 ^ 10) := by
  have harg := argument_near hp hp' hk
  have hsize := abs_argument_le hp hp' hk
  have hconst : (F64.ofRatio false 36787944 100000000).Near 0.36787944 (1 / 2 ^ 51) := by
    have h := near_ofRatio false (num := 36787944) (den := 100000000) (M := 1) (by decide) (by norm_num) (by norm_num)
      (by norm_num)
    norm_num at h ⊢
    exact h
  have hscale : (F64.ofInt 108).Near 108 (108 / 2 ^ 51) := near_ofInt (by norm_num) (by norm_num) (by norm_num)
  rw [curve8, exactCurve8]
  generalize ((k : ℝ) * period / 8 - period / 2) * Real.pi / period = a at *
  have hexp := (harg.libSin hlib (by linarith)).libExp hlib (Real.abs_sin_le_one a) (by norm_num)
  have hlow := Real.exp_pos (Real.sin a)
  have hhigh := (Real.exp_le_exp.mpr (Real.sin_le_one a)).trans Real.exp_one_lt_three.le
  generalize Real.exp (Real.sin a) = e at *
  have habs : |e - 0.36787944| ≤ 3 := by
    rw [abs_le]
    constructor <;> linarith
  have hdiff : ((exp (sin _)).sub _).Near (e - 0.36787944) (5167 / 2 ^ 51) :=
    (hexp.sub hconst (M := 4) (by linarith) (by norm_num) (by norm_num)).mono (by norm_num)
  have habs' : |(e - 0.36787944) * 108| ≤ 324 := by
    rw [abs_mul, abs_of_pos (show (0 : ℝ) < 108 by norm_num)]
    linarith
  have hproduct := hdiff.mul hscale (η := 600000 / 2 ^ 51) (M := 400) (by norm_num; linarith) (by linarith) (by norm_num)
    (by norm_num)
  exact hproduct.mono (by norm_num)

end

/-! ### The table -/

/-- Samples that truncate to `v` are collected in order, wrapped. -/
theorem samplesOf_of_trunc {f : Curve} {period : Int} {n w : Nat} {v : Nat → Int} {ks : List Nat}
    (h : ∀ k ∈ ks, (f (sampleOffset period n k) (F64.ofInt period)).trunc = some (v k)) :
    samplesOf f period n w ks = some (ks.map fun k => wrapSample w (v k)) := by
  induction ks with
  | nil => rfl
  | cons k ks ih =>
    rw [List.forall_mem_cons] at h
    obtain ⟨hk, hks⟩ := h
    rw [samplesOf, hk, ih hks]
    rfl

theorem generate_of_truncatedSample {f : Curve} {period : Int} {c : Cfg} {v : Nat → Int} (hp : 0 < period)
    (h : ∀ k, k < c.samples → truncatedSample f period c k = some (v k)) :
    generate f period c.samples c.width =
      .ok ((List.range c.samples).map (fun k => wrapSample c.width (v k)) ++ [c.satMax]) := by
  rw [generate_of_cfg f period c hp, samplesOf_of_trunc fun k hk => h k (List.mem_range.mp hk)]

/-- The source's samples need no wrap; with MAX they are its table `lut8`. -/
theorem map_sourceSample :
    (List.range Cfg.pli8.samples).map (fun k => wrapSample Cfg.pli8.width (sourceSample k)) ++ [Cfg.pli8.satMax] =
      [0, 3, 13, 33, 68, 118, 179, 232, 255] := by decide

/-- Every sample of the exact curve lies above its entry of the source's table and below the next integer, with room for the
errors of the generator's arithmetic; the first one has the least. -/
theorem exactCurve8_sample_between {period : ℝ} (hp : 0 < period) {k : Nat} (hk : k < 8) :
    sourceSample k + 1e-9 < exactCurve8 period (k * period / 8) ∧
      exactCurve8 period (k * period / 8) < sourceSample k + 1 - 1e-9 := by
  obtain rfl | h1 := Nat.eq_zero_or_pos k
  · have hfirst := abs_lt.mp (exactCurve8_first_near hp)
    have hzero : sourceSample 0 = 0 := rfl
    rw [hzero, Nat.cast_zero, zero_mul, zero_div]
    constructor <;> linarith
  · obtain ⟨hlow, hhigh⟩ := exactCurve8_sample_mem hp h1 hk
    constructor <;> linarith

section

variable {exp sin : F64 → F64} (hlib : LibraryWithin 1000 exp sin) {period : Int} (hp : 0 < period) (hp' : period < 2 ^ 32)

include hlib hp hp'

theorem curve8_truncatedSample {k : Nat} (hk : k < 8) :
    truncatedSample (curve8 exp sin) period .pli8 k = some (sourceSample k : Int) := by
  obtain ⟨y, hy, herr⟩ := curve8_near hp hp' hlib hk.le
  obtain ⟨hlow, hhigh⟩ := exactCurve8_sample_between (show (0 : ℝ) < period by exact_mod_cast hp) hk
  rw [abs_le] at herr
  refine trunc_of_value hy ?_ ?_
  · have : (sourceSample k : ℝ) ≤ y := by linarith
    exact_mod_cast this
  · have : (y : ℝ) < sourceSample k + 1 := by linarith
    exact_mod_cast this

/-- Any library within 1000 units in the last place gives the source's table, at every period a command can carry. -/
theorem generate_curve8 : generate (curve8 exp sin) period 8 8 = .ok [0, 3, 13, 33, 68, 118, 179, 232, 255] := by
  rw [← map_sourceSample]
  exact generate_of_truncatedSample (c := .pli8) hp fun k hk => curve8_truncatedSample hlib hp hp' hk

end

/-- Settles O60: the exact curve's facts, the generator's error on each sample, and the table; the model's own library is one
of those that the premise admits. -/
theorem referenceCurveGivesTheSourceTable : Obligations.ReferenceCurveGivesTheSourceTable := by
  unfold Obligations.ReferenceCurveGivesTheSourceTable
  intro exp sin period hlib hp hp'
  have hpos : (0 : ℝ) < period := by exact_mod_cast hp
  refine ⟨exactCurve8_strictMonoOn hpos, exactCurve8_first_near hpos, exactCurve8_last_near hpos,
    fun k h1 h8 => far_of_between (exactCurve8_sample_mem hpos h1 h8), fun k hk => ?samples,
    generate_curve8 hlib hp hp', generate_curve8 (libraryWithin_mono (by decide) library_within) hp hp'⟩
  case samples =>
    obtain ⟨y, hy, herr⟩ := curve8_near hp hp' hlib hk.le
    exact ⟨y, hy, herr.trans_lt (by norm_num)⟩

end Sys2Proof.Machine
end

