-- ==== Sys2Proof/Proofs/Errors.lean ====
section
/-! The response codes, and when each error is raised, with the data that its response records (rules R140 to R142). -/

namespace Sys2Proof.Machine

/-! ### Response codes -/

/-- The errors in the order of their STATUS bits (rule R26). -/
theorem Err.getElem?_bit (e : Err) : [Err.ill, .idx, .pzero, .divz, .ovr][e.bit]? = some e := by
  cases e <;> rfl

theorem Err.bit_lt_five (e : Err) : e.bit < 5 :=
  (List.getElem?_eq_some_iff.mp (Err.getElem?_bit e)).1

theorem Err.bit_injective : Function.Injective Err.bit := by
  intro e e' h
  have hsome := Err.getElem?_bit e
  rw [h, Err.getElem?_bit e'] at hsome
  exact (Option.some.inj hsome).symm

theorem Response.code_of_ok {r : Response} (h : r.err = none) : r.code = 0 := by
  rw [Response.code, h]

/-- The three bits of the code hold every error's number. -/
theorem Response.toNat_code_of_err {r : Response} {e : Err} (h : r.err = some e) : r.code.toNat = e.bit + 1 := by
  have hbit := Err.bit_lt_five e
  rw [Response.code, h]
  exact Nat.mod_eq_of_lt (by rw [Err.code]; omega)

theorem Response.toNat_code_le_five (r : Response) : r.code.toNat ≤ 5 := by
  cases h : r.err with
  | none => simp [Response.code_of_ok h]
  | some e => rw [Response.toNat_code_of_err h]; exact Err.bit_lt_five e

/-- The number of a code names the error of STATUS bit `c` exactly when it is `c + 1` (rule R140). -/
theorem Response.toNat_code_eq_succ_iff {r : Response} {c : Nat} :
    r.code.toNat = c + 1 ↔ ∃ e, r.err = some e ∧ e.bit = c := by
  cases h : r.err with
  | none => simp [Response.code_of_ok h]
  | some e => simp [Response.toNat_code_of_err h]

theorem Response.toNat_code_eq_zero_iff {r : Response} : r.code.toNat = 0 ↔ r.err = none := by
  cases h : r.err with
  | none => simp [Response.code_of_ok h]
  | some e => simp [Response.toNat_code_of_err h]

/-- Each error has a code of its own (rule R140). -/
theorem Response.err_eq_some_iff {e : Err} {code : BitVec 3} (h : code.toNat = e.bit + 1) (r : Response) :
    r.err = some e ↔ r.code = code := by
  rw [← BitVec.toNat_inj, h, Response.toNat_code_eq_succ_iff]
  constructor
  · exact fun h => ⟨e, h, rfl⟩
  · rintro ⟨e', he', hbit⟩
    rwa [← Err.bit_injective hbit]

/-- Settles O37: an error's code is one above the number of its STATUS bit, and the command that raises the error sets that
bit (rule R27). -/
theorem codesNumberTheirStatusBits : Obligations.CodesNumberTheirStatusBits := by
  unfold Obligations.CodesNumberTheirStatusBits
  intro i s t hexec
  obtain ⟨r, hqueue, hraised, -, -⟩ := raisedErrorSetsItsStatusBitAlone i s t hexec
  refine ⟨r, hqueue, r.toNat_code_le_five, Response.toNat_code_eq_zero_iff, Response.err_eq_some_iff rfl r,
    Response.err_eq_some_iff rfl r, Response.err_eq_some_iff rfl r, Response.err_eq_some_iff rfl r,
    Response.err_eq_some_iff rfl r, ?setsBit⟩
  case setsBit =>
    intro c hc
    obtain ⟨e, he, rfl⟩ := Response.toNat_code_eq_succ_iff.mp hc
    simp [hraised e he]

/-! ### Causes and data -/

/-- The condition of each row of rule R141's table, for the command `i` on a block elaborated with `p`. -/
def CauseHolds (p : Params) (i : Instr) : Err → Prop
  | .ill => i.opcode.toNat = 0 ∨ 7 ≤ i.opcode.toNat
  | .idx => i.opcode.toNat = 3 ∧ p.cfg.samples < i.fieldA.toNat
  | .pzero => (i.opcode.toNat = 1 ∨ i.opcode.toNat = 2) ∧ i.fieldB.toNat = 0
  | .divz => i.opcode.toNat = 1 ∧ i.fieldA.toNat + 1 < i.fieldB.toNat ∧ i.fieldB.toNat / p.cfg.samples = 0
  | .ovr =>
    i.opcode.toNat = 1 ∧ i.fieldA.toNat + 1 < i.fieldB.toNat ∧ i.fieldB.toNat / p.cfg.samples ≠ 0 ∧
      p.cfg.satMax < apxpExact p i.fieldA.toNat i.fieldB.toNat

/-- The response data of each row of rule R141's table. -/
def errorData (p : Params) (i : Instr) : Err → Word
  | .ill => 0
  | .idx => 0
  | .pzero => zext32 p.cfg.satMax
  | .divz => 0
  | .ovr => zext32 (apxpExact p i.fieldA.toNat i.fieldB.toNat % 2 ^ p.cfg.width)

/-- A response to `i` in which every error is raised as rule R141's table says. -/
structure ErrsByCause (p : Params) (i : Instr) (r : Response) : Prop where
  raised_iff : ∀ e, r.err = some e ↔ CauseHolds p i e
  data_eq : ∀ e, r.err = some e → r.data = errorData p i e

section

variable {p : Params} {i : Instr}

/-- At most one error applies to one command (rule R142): the opcodes set `ILL` and `IDX` apart from each other and from the
rest, the edge rule sets `PZERO` apart from `DIVZ` and `OVR`, and the segment width those two. -/
theorem CauseHolds.unique {e e' : Err} (h : CauseHolds p i e) (h' : CauseHolds p i e') : e = e' := by
  cases e <;> cases e' <;> simp only [CauseHolds, reduceCtorEq] at h h' ⊢ <;> omega

/-- A command whose error has its cause answers by the table: no other cause holds. -/
theorem ErrsByCause.of_cause (e : Err) (h : CauseHolds p i e) :
    ErrsByCause p i { data := errorData p i e, err := some e } where
  raised_iff e' := by
    rw [Option.some.injEq]
    exact ⟨fun he => he ▸ h, h.unique⟩
  data_eq e' he := by rw [Option.some.inj he]

/-- A command without a cause of an error answers by the table when it raises nothing. -/
theorem ErrsByCause.of_no_cause (data : Word) (h : ∀ e, ¬CauseHolds p i e) :
    ErrsByCause p i { data := data, err := none } where
  raised_iff e := by simp [h e]
  data_eq e he := nomatch he

/-- Where the edge rule applies to an interpolation command, `PZERO` is the one error that can be raised. -/
theorem errsByCause_edgeResult (hop : i.opcode.toNat = 1 ∨ i.opcode.toNat = 2)
    (hedge : i.fieldB.toNat ≤ i.fieldA.toNat + 1) : ErrsByCause p i (edgeResult p.cfg i.fieldB.toNat) := by
  by_cases hzero : i.fieldB.toNat = 0
  · rw [hzero, edgeResult_zero]
    exact .of_cause .pzero ⟨hop, hzero⟩
  · rw [edgeResult_of_ne_zero _ hzero]
    refine .of_no_cause _ fun e => ?_
    cases e <;> simp only [CauseHolds] <;> omega

end

section

variable (p : Params)

theorem errsByCause_apxpResult (t period : Word) :
    ErrsByCause p (.apxp t period) (apxpResult p t.toNat period.toNat) := by
  have hop : (Instr.apxp t period).opcode.toNat = 1 := rfl
  by_cases hedge : period.toNat ≤ t.toNat + 1
  · rw [apxpResult_of_edge p hedge]
    exact errsByCause_edgeResult (.inl hop) hedge
  have hlt := Nat.lt_of_not_le hedge
  by_cases hdx : apxpWidth p.cfg period.toNat = 0
  · rw [apxpResult_of_width_zero p hlt hdx]
    exact .of_cause .divz ⟨hop, hlt, hdx⟩
  by_cases hv : p.cfg.satMax < apxpExact p t.toNat period.toNat
  · rw [apxpResult_of_overflow p hlt hdx hv]
    exact .of_cause .ovr ⟨hop, hlt, hdx, hv⟩
  · rw [apxpResult_of_le_satMax p hlt hdx (Nat.le_of_not_lt hv)]
    refine .of_no_cause _ fun e => ?_
    cases e with
    | ill | idx => simp [CauseHolds, hop]
    | pzero => exact fun ⟨_, hzero⟩ => Nat.not_lt_zero _ (hzero ▸ hlt)
    | divz => exact fun ⟨_, _, hwidth⟩ => hdx hwidth
    | ovr => exact fun ⟨_, _, _, hover⟩ => hv hover

theorem errsByCause_apxfResult (t period : Word) :
    ErrsByCause p (.apxf t period) (apxfResult p t.toNat period.toNat) := by
  have hop : (Instr.apxf t period).opcode.toNat = 2 := rfl
  by_cases hedge : period.toNat ≤ t.toNat + 1
  · rw [apxfResult_of_edge p hedge]
    exact errsByCause_edgeResult (.inr hop) hedge
  · have hlt := Nat.lt_of_not_le hedge
    rw [apxfResult_of_lt p hlt]
    refine .of_no_cause _ fun e => ?_
    cases e with
    | pzero => exact fun ⟨_, hzero⟩ => Nat.not_lt_zero _ (hzero ▸ hlt)
    | _ => simp [CauseHolds, hop]

theorem errsByCause_lutrdResult (index b : Word) :
    ErrsByCause p (.lutrd index b) (lutrdResult p index.toNat) := by
  have hop : (Instr.lutrd index b).opcode.toNat = 3 := rfl
  by_cases hn : p.cfg.samples < index.toNat
  · rw [lutrdResult_of_gt p hn]
    exact .of_cause .idx ⟨hop, hn⟩
  · rw [lutrdResult_of_le p (Nat.le_of_not_lt hn)]
    refine .of_no_cause _ fun e => ?_
    cases e with
    | idx => exact fun ⟨_, hgt⟩ => hn hgt
    | _ => simp [CauseHolds, hop]

/-- The commands with opcodes 4 to 6 have no cause of an error. -/
theorem errsByCause_of_register_access {i : Instr} (h : 4 ≤ i.opcode.toNat ∧ i.opcode.toNat ≤ 6) (data : Word) :
    ErrsByCause p i { data := data, err := none } := by
  refine .of_no_cause _ fun e => ?_
  cases e <;> simp only [CauseHolds] <;> omega

end

/-- Every command appends to `Q` one response whose error is raised for its cause (rule R141). -/
theorem exec_errsByCause (i : Instr) (s : State) :
    ∃ r u, exec i s = .next (completeCommand r u) ∧ u.queue = s.queue ∧ ErrsByCause s.params i r := by
  cases i with
  | apxp t period => exact ⟨_, s, exec_apxp t period s, rfl, errsByCause_apxpResult s.params t period⟩
  | apxf t period => exact ⟨_, s, exec_apxf t period s, rfl, errsByCause_apxfResult s.params t period⟩
  | lutrd index b => exact ⟨_, s, exec_lutrd index b s, rfl, errsByCause_lutrdResult s.params index b⟩
  | statrd a b | idrd a b =>
    exact ⟨_, s, rfl, rfl, errsByCause_of_register_access s.params (by simp [Instr.opcode]) _⟩
  | statclr mask b =>
    exact ⟨_, _, exec_statclr mask b s, clearStatusBits_queue s _,
      errsByCause_of_register_access s.params (by simp [Instr.opcode]) _⟩
  | _ => exact ⟨_, s, rfl, rfl, .of_cause .ill (by simp [CauseHolds, Instr.opcode])⟩

/-- The two spellings of the condition of `DIVZ` in rule R141's table. -/
theorem divz_condition_iff (c : Cfg) (a b : Nat) :
    (a + 1 < b ∧ b / c.samples = 0) ↔ (2 ≤ b ∧ b ≤ c.samples - 1 ∧ a ≤ b - 2) := by
  have hn := samples_pos c
  rw [Nat.div_eq_zero_iff]
  omega

/-- Settles O38: each row of the table, read off the response that the command appends. -/
theorem errorCauses : Obligations.ErrorCauses := by
  unfold Obligations.ErrorCauses
  intro i s t hexec
  obtain ⟨r, u, hnext, hqueue, hraised, hdata⟩ := exec_errsByCause i s
  rw [hnext] at hexec
  cases hexec
  refine ⟨r, by rw [completeCommand_queue, hqueue], hraised .ill, hdata .ill, hraised .idx, hdata .idx, hraised .pzero,
    hdata .pzero, hraised .divz, ?divzRange, hdata .divz, hraised .ovr, hdata .ovr⟩
  case divzRange => rw [← divz_condition_iff]; exact hraised .divz

end Sys2Proof.Machine
end

