-- ==== Sys2Proof/Proofs/Reset.lean ====
section
/-! An edge with `rst_n = 0`: the one step it takes, and the two channels on which nothing transfers (rules R160, R161). -/

namespace Sys2Proof.Machine

section
variable {s : State} (h : s.pins.rstN = false)
include h

/-- From any state, whether reset was applied before or not. -/
theorem step_of_reset : step s = .next (resetEdge s) := by
  obtain ⟨-, hstep⟩ | ⟨hrun, -⟩ | ⟨hrun, -⟩ | ⟨hrun, -⟩ := step_cases s
  · exact hstep
  all_goals exact absurd hrun (by simp [h])

theorem requestTransfers_of_reset : s.requestTransfers = false := by
  simp [State.requestTransfers, h]

theorem responseTransfers_of_reset : s.responseTransfers = false := by
  simp [State.responseTransfers, h]

theorem commandAt_of_reset : commandAt s = none := by
  simp [commandAt, requestTransfers_of_reset h]

theorem deliveredAt_of_reset : deliveredAt s = none := by
  simp [deliveredAt, responseTransfers_of_reset h]

end

/-- Settles O1: the step is `resetEdge`, whose fields are the reset values, and neither channel transfers. -/
theorem resetEdgeAppliesResetValues : Obligations.ResetEdgeAppliesResetValues := by
  unfold Obligations.ResetEdgeAppliesResetValues
  intro s h
  exact ⟨resetEdge s, step_of_reset h, resetEdge_status s, resetEdge_queue s, resetEdge_reqReady s, resetEdge_rspValid s,
    resetEdge_params s, congrArg readId (resetEdge_params s), deliveredAt_of_reset h, commandAt_of_reset h⟩

end Sys2Proof.Machine
end

