-- ==== Sys2Proof/Proofs/Encoding.lean ====
section
/-! Decoder and encoder as inverses, and where the fields of the packed words lie (rules R60 to R66). -/

namespace Sys2Proof

/-- The opcode map of a command's own opcode and fields is the command (rule R62). -/
theorem decodeFields_opcode_fields (i : Instr) : decodeFields i.opcode i.fieldB i.fieldA = i := by
  cases i <;> rfl

theorem decode_encode (i : Instr) : decode (encode i) = i := by
  rw [encode, decode_packReq, decodeFields_opcode_fields]

/-- Every opcode, reserved or not, is the one of the command it selects, and the command keeps both fields (rules R62, R65). -/
theorem encode_decodeFields (op : Opcode) (b a : Word) : encode (decodeFields op b a) = packReq op b a := by
  obtain ⟨⟨n, hn⟩⟩ := op
  interval_cases n <;> rfl

theorem encode_decode (w : ReqWord) : encode (decode w) = w := by
  rw [decode, encode_decodeFields, packReq_fields]

end Sys2Proof

namespace Sys2Proof.Machine

/-- Settles O10, from the opcode map read in both directions. -/
theorem decodeAndEncodeAgree : Obligations.DecodeAndEncodeAgree := by
  unfold Obligations.DecodeAndEncodeAgree
  exact ⟨fun i _ => decode_encode i, encode_decode⟩

/-- Settles O9, by decoding each word. -/
theorem writtenOutWordsDecode : Obligations.WrittenOutWordsDecode := by
  unfold Obligations.WrittenOutWordsDecode
  decide

/-- Settles O11: decoding a packed word is the opcode map, read at each of its sixteen arms. -/
theorem opcodeAloneSelectsTheCommand : Obligations.OpcodeAloneSelectsTheCommand := by
  unfold Obligations.OpcodeAloneSelectsTheCommand
  intro b a
  simp only [decode_packReq]
  exact ⟨rfl, rfl, rfl, rfl, rfl, rfl, rfl, rfl, rfl, rfl, rfl, rfl, rfl, rfl, rfl, rfl⟩

/-- The second part of a packed word holds its low `n` bits. -/
theorem toNat_append_eq {m n : Nat} (x : BitVec m) (y : BitVec n) : (x ++ y).toNat = x.toNat * 2 ^ n + y.toNat := by
  rw [BitVec.toNat_append, ← Nat.shiftLeft_add_eq_or_of_lt y.isLt, Nat.shiftLeft_eq]

theorem toNat_packReq (op : Opcode) (b a : Word) :
    (packReq op b a).toNat = op.toNat * 2 ^ 64 + b.toNat * 2 ^ 32 + a.toNat := by
  rw [packReq, toNat_append_eq, toNat_append_eq]
  ring

/-- Settles O12, from the number that an appended word is. -/
theorem packedWordFieldPlaces : Obligations.PackedWordFieldPlaces := by
  unfold Obligations.PackedWordFieldPlaces
  exact ⟨toNat_packReq, fun r => toNat_append_eq r.code r.data⟩

end Sys2Proof.Machine
end

