-- ==== Sys2Proof/Proofs/AssemblerLines.lean ====
section
/-! What each line of the assembler yields, and which commands its words decode to (rules R63, R67). -/

namespace Sys2Proof.Machine

/-- Fields of which one does not fit are refused (rule R67). -/
theorem assembleFields_of_not_lt {op b a : Nat} (h : ¬(op < 2 ^ 4 ∧ b < 2 ^ 32 ∧ a < 2 ^ 32)) :
    assembleFields op b a = .error .operand := if_neg h

/-- The one request word of a line whose fields fit. -/
theorem oneWord_assembleFields_of_lt {op b a : Nat} (hop : op < 2 ^ 4) (hb : b < 2 ^ 32) (ha : a < 2 ^ 32) :
    oneWord (assembleFields op b a) =
      .ok [packReq (BitVec.ofNat 4 op) (BitVec.ofNat 32 b) (BitVec.ofNat 32 a)] := by
  rw [assembleFields_of_lt hop hb ha]
  rfl

theorem oneWord_assembleFields_of_not_lt {op b a : Nat} (h : ¬(op < 2 ^ 4 ∧ b < 2 ^ 32 ∧ a < 2 ^ 32)) :
    oneWord (assembleFields op b a) = .error .operand := by
  rw [assembleFields_of_not_lt h]
  rfl

/-- Settles O57: every line is one word of its three fields, packed where all fit and refused where one does not. -/
theorem assemblerEncodesEachLine : Obligations.AssemblerEncodesEachLine := by
  unfold Obligations.AssemblerEncodesEachLine
  refine ⟨?fits, ?refused⟩
  case fits =>
    intro c x y hx hy
    exact ⟨oneWord_assembleFields_of_lt (by decide) hy hx, oneWord_assembleFields_of_lt (by decide) hy hx,
      assemble_lutrd hx, oneWord_assembleFields_of_lt (op := 4) (b := 0) (a := 0) (by decide) (by decide) (by decide),
      oneWord_assembleFields_of_lt (by decide) (by decide) hx,
      oneWord_assembleFields_of_lt (op := 6) (b := 0) (a := 0) (by decide) (by decide) (by decide),
      fun op hop => oneWord_assembleFields_of_lt hop hy hx⟩
  case refused =>
    intro c x y op
    refine ⟨fun h => ?_, fun h => ?_, fun h => oneWord_assembleFields_of_not_lt (by omega)⟩
    · exact ⟨oneWord_assembleFields_of_not_lt (by omega), oneWord_assembleFields_of_not_lt (by omega),
        oneWord_assembleFields_of_not_lt (by omega)⟩
    · exact ⟨oneWord_assembleFields_of_not_lt (by omega), oneWord_assembleFields_of_not_lt (by omega)⟩

/-- The words of a one-word line decode by the opcode map of the line's fields. -/
theorem decode_of_mem_oneWord {op b a : Nat} {ws : List ReqWord} (h : oneWord (assembleFields op b a) = .ok ws) :
    ∀ w ∈ ws, decode w = decodeFields (BitVec.ofNat 4 op) (BitVec.ofNat 32 b) (BitVec.ofNat 32 a) := by
  by_cases hfits : op < 2 ^ 4 ∧ b < 2 ^ 32 ∧ a < 2 ^ 32
  case pos =>
    obtain ⟨hop, hb, ha⟩ := hfits
    rw [oneWord_assembleFields_of_lt hop hb ha] at h
    cases h
    simp only [List.mem_singleton, forall_eq, decode_packReq]
  case neg =>
    rw [oneWord_assembleFields_of_not_lt hfits] at h
    cases h

theorem decode_of_mem_lutrdWords {indexes : List Nat} {w : ReqWord} (h : w ∈ lutrdWords indexes) :
    ∃ i, decode w = .lutrd (BitVec.ofNat 32 i) 0 := by
  obtain ⟨i, -, rfl⟩ := List.mem_map.mp h
  exact ⟨i, decode_packReq_lutrd 0 _⟩

/-- Settles O59: each line fixes its opcode and writes 0 in the fields which that opcode ignores. -/
theorem assembledCommandsAreCanonical : Obligations.AssembledCommandsAreCanonical := by
  unfold Obligations.AssembledCommandsAreCanonical
  intro c l ws h hreq w hw
  cases l with
  | req op b a => exact absurd rfl (hreq op b a)
  | lutrdall =>
    cases h
    obtain ⟨i, hi⟩ := decode_of_mem_lutrdWords hw
    rw [hi]
    rfl
  | _ =>
    rw [assemble] at h
    rw [decode_of_mem_oneWord h w hw]
    rfl

end Sys2Proof.Machine
end

