-- ==== Sys2Proof/Proofs/CommandEffect.lean ====
section
/-! The whole effect of a command, as a function of the parameters, STATUS and the command (rules R30, R45, R47). -/

namespace Sys2Proof.Machine

/-- The response of a command on a block elaborated with `p` whose STATUS register holds `status`; `exec_eq` ties it to
`exec`. -/
def responseTo (p : Params) (status : Word) : Instr → Response
  | .apxp t period => apxpResult p t.toNat period.toNat
  | .apxf t period => apxfResult p t.toNat period.toNat
  | .lutrd index _ => lutrdResult p index.toNat
  | .statrd _ _ => { data := status &&& statusBits, err := none }
  | .statclr _ _ => { data := status &&& statusBits, err := none }
  | .idrd _ _ => { data := readId p, err := none }
  | _ => { data := 0, err := some .ill }

/-- STATUS after an error or none was raised, as `raiseErr` writes it. -/
def statusRaised (status : Word) : Option Err → Word
  | none => status
  | some e => ((status &&& statusBits) ||| e.mask) &&& statusBits

/-- STATUS after a command; `exec_eq` ties it to `exec`. -/
def statusAfter (p : Params) (status : Word) : Instr → Word
  | .statclr mask _ => ((status &&& statusBits) &&& ~~~clearMask mask) &&& statusBits
  | i => statusRaised status (responseTo p status i).err

/-- The state in which a command that only completes leaves `s`. -/
theorem completeCommand_eq (r : Response) (s : State) :
    completeCommand r s =
      { s with queue := s.queue ++ [{ rsp := r, age := 0 }], status := statusRaised s.status r.err } := by
  obtain ⟨data, err⟩ := r
  cases err <;> rfl

/-- What a command does, said once: it answers, sets STATUS, and changes nothing else. -/
theorem exec_eq (i : Instr) (s : State) :
    exec i s = .next
      { s with
        queue := s.queue ++ [{ rsp := responseTo s.params s.status i, age := 0 }]
        status := statusAfter s.params s.status i } := by
  cases i with
  | statclr mask b => rfl
  | _ => exact congrArg Host.Outcome.next (completeCommand_eq _ s)

/-- Settles O35, from the whole effect of a command. -/
theorem commandFrame : Obligations.CommandFrame := by
  unfold Obligations.CommandFrame
  intro i s t h
  rw [exec_eq] at h
  cases h
  exact ⟨⟨_, rfl⟩, rfl, fun _ => rfl, rfl, rfl, rfl, rfl, rfl, rfl, rfl, rfl⟩

/-- Settles O13: an ignored field is in neither the response nor STATUS, and every command answers. -/
theorem ignoredFieldsHaveNoEffect : Obligations.IgnoredFieldsHaveNoEffect := by
  unfold Obligations.IgnoredFieldsHaveNoEffect
  intro s a b a' b'
  refine ⟨rfl, rfl, rfl, rfl, fun i => ⟨?wellFormed, _, exec_eq i s⟩⟩
  case wellFormed => cases i <;> rfl

/-- The responses of the pure commands do not depend on STATUS. -/
theorem responseTo_of_pure (p : Params) (status status' a b : Word) :
    ∀ i ∈ [Instr.apxp a b, .apxf a b, .lutrd a b, .idrd a b], responseTo p status i = responseTo p status' i := by
  simp only [List.forall_mem_cons, List.not_mem_nil, false_implies, implies_true, and_true]
  exact ⟨rfl, rfl, rfl, rfl⟩

/-- Settles O40: both responses are the one of the common parameters. -/
theorem pureCommandsIgnoreHistory : Obligations.PureCommandsIgnoreHistory := by
  unfold Obligations.PureCommandsIgnoreHistory
  intro s u s' u' a b hparams i hi hs hu
  rw [exec_eq] at hs hu
  cases hs
  cases hu
  refine ⟨responseTo s.params s.status i, rfl, ?_⟩
  rw [responseTo_of_pure s.params s.status u.status a b i hi, hparams]

/-! ### Command streams -/

/-- The responses of a command stream executed one at a time; `execAll_eq` ties it to `execAll`. -/
def responsesTo (p : Params) : Word → List Instr → List Response
  | _, [] => []
  | status, i :: is => responseTo p status i :: responsesTo p (statusAfter p status i) is

/-- STATUS after a command stream. -/
def statusAfterAll (p : Params) : Word → List Instr → Word := List.foldl (statusAfter p)

theorem length_responsesTo (p : Params) (status : Word) (is : List Instr) : (responsesTo p status is).length = is.length := by
  induction is generalizing status with
  | nil => rfl
  | cons i is ih => rw [responsesTo, List.length_cons, ih, List.length_cons]

theorem responsesTo_append (p : Params) (status : Word) (is js : List Instr) :
    responsesTo p status (is ++ js) = responsesTo p status is ++ responsesTo p (statusAfterAll p status is) js := by
  induction is generalizing status with
  | nil => rfl
  | cons i is ih => exact congrArg (responseTo p status i :: ·) (ih (statusAfter p status i))

theorem statusAfterAll_append (p : Params) (status : Word) (is js : List Instr) :
    statusAfterAll p status (is ++ js) = statusAfterAll p (statusAfterAll p status is) js := List.foldl_append

/-- A command stream appends its responses in order, sets STATUS, and changes nothing else. -/
theorem execAll_eq (is : List Instr) (s : State) :
    execAll is s = some
      { s with
        queue := s.queue ++ (responsesTo s.params s.status is).map fun r => { rsp := r, age := 0 }
        status := statusAfterAll s.params s.status is } := by
  induction is generalizing s with
  | nil => simp [execAll, responsesTo, statusAfterAll]
  | cons i is ih =>
    rw [execAll_cons_of_next (exec_eq i s), ih]
    simp [responsesTo, statusAfterAll]

/-! ### STATUS after a command -/

/-- A command writes bits 31:5 of STATUS with 0, or leaves STATUS as it is (rule R26). -/
theorem statusAfter_and_statusBits (p : Params) {status : Word} (h : status &&& statusBits = status) (i : Instr) :
    statusAfter p status i &&& statusBits = statusAfter p status i := by
  have hraised (err : Option Err) : statusRaised status err &&& statusBits = statusRaised status err := by
    cases err with
    | none => exact h
    | some e => rw [statusRaised, BitVec.and_assoc, BitVec.and_self]
  cases i with
  | statclr mask b => rw [statusAfter, BitVec.and_assoc, BitVec.and_self]
  | _ => exact hraised _

/-- A set STATUS bit stays set over every command but a `STATCLR` with that bit in its mask (rules R26, R27). -/
theorem statusBit_of_exec {i : Instr} {s t : State} {j : Nat} (hexec : exec i s = .next t) (hbit : statusBit s j = true)
    (hspared : ∀ a b, i = .statclr a b → a.getLsbD j = false) : statusBit t j = true := by
  by_cases hi : ∃ a b, i = .statclr a b
  case pos =>
    obtain ⟨a, b, rfl⟩ := hi
    rw [exec_statclr] at hexec
    cases hexec
    rw [statusBit, readStatus, BitVec.getLsbD_and, getLsbD_statusBits] at hbit ⊢
    rw [completeCommand_status_of_ok rfl, getLsbD_status_clearStatusBits, hspared a b rfl]
    simpa [and_comm] using hbit
  case neg =>
    have hne : ∀ a b, i ≠ .statclr a b := fun a b h => hi ⟨a, b, h⟩
    obtain ⟨r, -, hraised, hok, -⟩ := raisedErrorSetsItsStatusBitAlone i s t hexec
    cases herr : r.err with
    | none => rwa [statusBit, readStatus, hok herr hne]
    | some e => simp [hraised e herr, hbit]

end Sys2Proof.Machine
end

