-- ==== Sys2Proof/Proofs/Edges.lean ====
section
/-! What an edge with `rst_n = 1` does once reset has been applied, and the statements about single edges (rules R32, R45,
R155, R163, R167). -/

namespace Sys2Proof.Machine

/-! ### Which transfers an edge makes -/

section

variable {s : State}

theorem requestTransfers_of_not_ready (h : s.reqReady = false) : s.requestTransfers = false := by
  simp [State.requestTransfers, h]

theorem requestTransfers_of_not_valid (h : s.pins.reqValid = false) : s.requestTransfers = false := by
  simp [State.requestTransfers, h]

theorem reqReady_of_requestTransfers (h : s.requestTransfers = true) : s.reqReady = true := by
  simp only [State.requestTransfers, Bool.and_eq_true] at h
  exact h.2

theorem responseTransfers_of_not_valid (h : s.rspValid = false) : s.responseTransfers = false := by
  simp [State.responseTransfers, h]

theorem responseTransfers_of_not_taken (h : s.pins.rspReady = false) : s.responseTransfers = false := by
  simp [State.responseTransfers, h]

theorem rspValid_of_responseTransfers (h : s.responseTransfers = true) : s.rspValid = true := by
  simp only [State.responseTransfers, Bool.and_eq_true] at h
  exact h.1.2

theorem commandAt_of_request (h : s.requestTransfers = true) : commandAt s = some (decode s.pins.request) := if_pos h

theorem commandAt_of_no_request (h : s.requestTransfers = false) : commandAt s = none := by
  simp [commandAt, h]

theorem deliveredAt_of_no_response (h : s.responseTransfers = false) : deliveredAt s = none := by
  simp [deliveredAt, h]

/-- Where no response transfers, the response side of the edge does nothing. -/
theorem takeResponse_of_no_response (h : s.responseTransfers = false) : takeResponse s = s := by
  simp [takeResponse, h]

end

/-! ### The step -/

/-- The entries that the command side of an edge appends to `Q`: one, or none. -/
def acceptedEntries (s : State) : List QEntry :=
  (responsesTo s.params s.status (commandAt s).toList).map fun r => { rsp := r, age := 0 }

/-- The state after the response side and the command side of an edge; `exec_of_request` and `commandEdge_of_no_request` say
which it is. -/
def commandEdge (s : State) : State :=
  { takeResponse s with
    queue := (takeResponse s).queue ++ acceptedEntries s
    status := statusAfterAll s.params s.status (commandAt s).toList }

/-- The command side of an edge is the accepted command, executed on the state whose transferring response has left `Q`. -/
theorem execAll_commandAt (s : State) : execAll (commandAt s).toList (takeResponse s) = some (commandEdge s) := by
  simp [execAll_eq, commandEdge, acceptedEntries]

theorem exec_of_request {s : State} (h : s.requestTransfers = true) :
    exec (decode s.pins.request) (takeResponse s) = .next (commandEdge s) := by
  have hall := execAll_commandAt s
  rw [commandAt_of_request h, Option.toList_some, execAll_cons_of_next (exec_eq _ _), execAll, Option.some.injEq] at hall
  rw [exec_eq, hall]

theorem commandEdge_of_no_request {s : State} (h : s.requestTransfers = false) : commandEdge s = takeResponse s := by
  have hall := execAll_commandAt s
  rw [commandAt_of_no_request h, Option.toList_none, execAll, Option.some.injEq] at hall
  exact hall.symm

/-- Every edge with `rst_n = 1`, once reset has been applied, ends the cycle after its response and command sides. -/
theorem step_of_running {s : State} (hdone : s.resetDone = true) (hrst : s.pins.rstN = true) :
    step s = .next (finishEdge (commandEdge s)) := by
  obtain ⟨hfalse, -⟩ | ⟨-, hfalse, -⟩ | ⟨-, -, hreq, t, hexec, hstep⟩ | ⟨-, -, hreq, hstep⟩ := step_cases s
  · exact absurd hrst (by simp [hfalse])
  · exact absurd hdone (by simp [hfalse])
  · rw [exec_of_request hreq] at hexec
    cases hexec
    exact hstep
  · rw [hstep, commandEdge_of_no_request hreq]

/-- Before reset was first applied there is no other step (rule R163). -/
theorem step_of_unreset {s : State} (hdone : s.resetDone = false) (hrst : s.pins.rstN = true) :
    step s = .fault .beforeReset := by
  simp [step, hrst, hdone]

/-- What an edge that answers has done: applied reset, or ended a cycle of a block to which reset was applied. -/
theorem step_next_cases {s t : State} (h : step s = .next t) :
    (s.pins.rstN = false ∧ t = resetEdge s) ∨
    (s.pins.rstN = true ∧ s.resetDone = true ∧ t = finishEdge (commandEdge s)) := by
  cases hrst : s.pins.rstN with
  | false =>
    rw [step_of_reset hrst] at h
    cases h
    exact .inl ⟨rfl, rfl⟩
  | true =>
    cases hdone : s.resetDone with
    | false => simp [step_of_unreset hdone hrst] at h
    | true =>
      rw [step_of_running hdone hrst] at h
      cases h
      exact .inr ⟨rfl, rfl, rfl⟩

section

variable (s : State)

@[simp] theorem commandEdge_params : (commandEdge s).params = s.params := takeResponse_params s

@[simp] theorem commandEdge_inputs : (commandEdge s).inputs = s.inputs := takeResponse_inputs s

@[simp] theorem commandEdge_resetDone : (commandEdge s).resetDone = s.resetDone := takeResponse_resetDone s

theorem commandEdge_status : (commandEdge s).status = statusAfterAll s.params s.status (commandAt s).toList := rfl

theorem commandEdge_queue :
    (commandEdge s).queue = (if s.responseTransfers then s.queue.tail else s.queue) ++ acceptedEntries s := by
  rw [← takeResponse_queue]
  rfl

theorem length_acceptedEntries : (acceptedEntries s).length = if s.requestTransfers then 1 else 0 := by
  rw [acceptedEntries, List.length_map, length_responsesTo, commandAt]
  split <;> rfl

theorem age_of_mem_acceptedEntries {e : QEntry} (h : e ∈ acceptedEntries s) : e.age = 0 := by
  obtain ⟨r, -, rfl⟩ := List.mem_map.mp h
  rfl

end

/-- Settles O5, from the two sides of an edge. -/
theorem stepRunsTheDecodedCommand : Obligations.StepRunsTheDecodedCommand := by
  unfold Obligations.StepRunsTheDecodedCommand
  intro s hdone hrst
  refine ⟨fun hreq => ⟨commandEdge s, exec_of_request hreq, step_of_running hdone hrst⟩, fun hreq => ?_⟩
  rw [step_of_running hdone hrst, commandEdge_of_no_request hreq]

/-- Settles O47, from the entries that the two sides of an edge move and the end of the cycle. -/
theorem edgeMovesTheQueue : Obligations.EdgeMovesTheQueue := by
  unfold Obligations.EdgeMovesTheQueue
  intro s hdone hrst
  refine ⟨finishEdge (commandEdge s), (acceptedEntries s).map QEntry.tick, step_of_running hdone hrst, ?queue, ?length,
    ?age, ?inputs, ?params, ?status⟩
  case queue => rw [finishEdge_queue, commandEdge_queue, List.map_append]
  case length => rw [List.length_map, length_acceptedEntries]
  case age =>
    intro e he
    obtain ⟨e', he', rfl⟩ := List.mem_map.mp he
    rw [QEntry.tick, age_of_mem_acceptedEntries s he']
  case inputs => rw [finishEdge_inputs, commandEdge_inputs]
  case params => rw [finishEdge_params, commandEdge_params]
  case status =>
    intro hreq
    rw [finishEdge_status, commandEdge_of_no_request hreq, takeResponse_status]

/-- Settles O39: no edge without reset clears a bit beside the command that it runs. -/
theorem statusBitsAreSticky : Obligations.StatusBitsAreSticky := by
  unfold Obligations.StatusBitsAreSticky
  intro s t j hstep hrst hbit hspared
  obtain ⟨hreset, -⟩ | ⟨-, -, rfl⟩ := step_next_cases hstep
  · exact absurd hrst (by simp [hreset])
  have hread (u : State) : statusBit (finishEdge u) j = statusBit u j := by
    rw [statusBit, readStatus, finishEdge_status, statusBit, readStatus]
  have htake : statusBit (takeResponse s) j = true := by rwa [statusBit, readStatus_takeResponse]
  rw [hread]
  cases hreq : s.requestTransfers with
  | false => rwa [commandEdge_of_no_request hreq]
  | true =>
    refine statusBit_of_exec (exec_of_request hreq) htake fun a b hi => hspared a b ?_
    rw [commandAt_of_request hreq, hi]

/-! ### Reset and boot -/

/-- Settles O2: `State.resetOf` holds the values of rule R35's table, and `State.reset` is the one of `Params.sample`. -/
theorem resetStateHoldsResetValues : Obligations.ResetStateHoldsResetValues := by
  unfold Obligations.ResetStateHoldsResetValues
  exact ⟨fun p => ⟨rfl, rfl, rfl, rfl, rfl⟩, Params.sample, rfl⟩

/-- Settles O4, from the only two steps that a block has before its first reset. -/
theorem noStepBeforeReset : Obligations.NoStepBeforeReset := by
  unfold Obligations.NoStepBeforeReset
  exact fun s hdone => ⟨step_of_unreset hdone, fun hrst => ⟨resetEdge s, step_of_reset hrst, resetEdge_resetDone s⟩⟩

/-- An edge to a next state is the first of a run from there. -/
theorem runEdges_succ_of_next {s t : State} (h : step s = .next t) (k : Nat) : runEdges (k + 1) s = runEdges k t := by
  rw [runEdges, h]

/-- Once reset has been applied every edge answers, and reset stays applied (rule R144). -/
theorem step_answers {s : State} (hdone : s.resetDone = true) : ∃ t, step s = .next t ∧ t.resetDone = true := by
  cases hrst : s.pins.rstN with
  | false => exact ⟨resetEdge s, step_of_reset hrst, resetEdge_resetDone s⟩
  | true => exact ⟨_, step_of_running hdone hrst, by rw [finishEdge_resetDone, commandEdge_resetDone, hdone]⟩

/-- Settles O7, by induction on the number of edges. -/
theorem everyStepAnswersAfterReset : Obligations.EveryStepAnswersAfterReset := by
  unfold Obligations.EveryStepAnswersAfterReset
  intro k
  induction k with
  | zero => exact fun s hdone => ⟨s, rfl, hdone, rfl⟩
  | succ k ih =>
    intro s hdone
    obtain ⟨u, hstep, hdone'⟩ := step_answers hdone
    obtain ⟨t, hrun, hdone'', hparams⟩ := ih u hdone'
    exact ⟨t, by rw [runEdges_succ_of_next hstep, hrun], hdone'', by rw [hparams, step_keeps_params hstep]⟩

/-- A cycle that ends with `Q` empty leaves the block with room and no response presented. -/
theorem finishEdge_of_empty {u : State} (h : u.queue = []) :
    (finishEdge u).queue = [] ∧ (finishEdge u).rspValid = false ∧ (finishEdge u).reqReady = true := by
  have hroom : 0 < u.params.qdepth := u.params.qdepthPos
  simp [h, presented, hroom]

/-- Where no request transfers, an empty `Q` stays empty over both sides of an edge. -/
theorem commandEdge_queue_of_empty {s : State} (hreq : s.requestTransfers = false) (hqueue : s.queue = []) :
    (commandEdge s).queue = [] := by
  simp [commandEdge_of_no_request hreq, hqueue]

/-- Settles O8: neither side of the edge has anything to do, and the end of the cycle leaves `Q` empty. -/
theorem idleBlockKeepsItsState : Obligations.IdleBlockKeepsItsState := by
  unfold Obligations.IdleBlockKeepsItsState
  intro s hdone hrst hvalid hqueue
  have hreq := requestTransfers_of_not_valid hvalid
  obtain ⟨hempty, hpresent, hready⟩ := finishEdge_of_empty (commandEdge_queue_of_empty hreq hqueue)
  refine ⟨_, step_of_running hdone hrst, ?status, hempty, ?params, ?resetDone, hpresent, hready⟩
  case status => rw [finishEdge_status, commandEdge_of_no_request hreq, takeResponse_status]
  case params => rw [finishEdge_params, commandEdge_params]
  case resetDone => rw [finishEdge_resetDone, commandEdge_resetDone, hdone]

/-- Settles O3: the reset edge empties the block and clears `req_ready`, so the next edge accepts nothing and finds room. -/
theorem bootReachesRequestReady : Obligations.BootReachesRequestReady := by
  unfold Obligations.BootReachesRequestReady
  intro s p q rest hinputs hp hq
  have hreset : step s = .next (resetEdge s) := step_of_reset (by simp [State.pins, hinputs, hp])
  have hpins : (resetEdge s).pins = q := by simp [State.pins, hinputs]
  have hrun := step_of_running (resetEdge_resetDone s) (hpins.symm ▸ hq)
  have hreq := requestTransfers_of_not_ready (resetEdge_reqReady s)
  obtain ⟨hempty, hpresent, hready⟩ := finishEdge_of_empty (commandEdge_queue_of_empty hreq (resetEdge_queue s))
  refine ⟨_, by rw [runEdges_succ_of_next hreset, runEdges_succ_of_next hrun, runEdges], hready, hpresent, ?status, hempty,
    ?params, ?inputs⟩
  case status => rw [finishEdge_status, commandEdge_of_no_request hreq, takeResponse_status, resetEdge_status]
  case params => rw [finishEdge_params, commandEdge_params, resetEdge_params]
  case inputs => simp [hinputs]

/-! ### A request on the pins -/

/-- After making room a request can be accepted (log entry 10): a full `Q` has given up all but `QDEPTH - 1` responses. -/
theorem makeRoom_reqReady (s : State) : (makeRoom s).reqReady = true := by
  have hpos := s.params.qdepthPos
  unfold makeRoom
  split
  case isTrue => rfl
  case isFalse hfull =>
    simp only [driveOutputs_reqReady, List.length_drop, decide_eq_true_eq]
    omega

theorem placeRequest_request (w : ReqWord) (s : State) : (placeRequest w s).pins.request = w := packReq_fields w

theorem placeRequest_transfers (w : ReqWord) {s : State} (h : s.reqReady = true) :
    (placeRequest w s).requestTransfers = true := by
  simp [State.requestTransfers, h]

/-- The bits that a 68-bit number does not have are no loss (log entry 15). -/
theorem mod_two_pow_of_lt_two_pow_68 {nbits w : Nat} (hbits : 68 ≤ nbits) (hw : w < 2 ^ 68) : w % 2 ^ nbits = w :=
  Nat.mod_eq_of_lt (hw.trans_le (Nat.pow_le_pow_right (by decide) hbits))

/-- A 68-bit number is the request word of its own number. -/
theorem decodeTableWord_of_lt {nbits w : Nat} (hbits : 68 ≤ nbits) (hw : w < 2 ^ 68) :
    decodeTableWord nbits w = some (decode (BitVec.ofNat 68 w)) := by
  rw [decodeTableWord, mod_two_pow_of_lt_two_pow_68 hbits hw, decodeNumber, if_pos hw]

theorem withFetchWord_of_lt (s : State) {nbits w : Nat} (hbits : 68 ≤ nbits) (hw : w < 2 ^ 68) :
    s.withFetchWord nbits w = placeRequest (BitVec.ofNat 68 w) (makeRoom s) := by
  rw [State.withFetchWord, mod_two_pow_of_lt_two_pow_68 hbits hw]

/-- Settles O6: the placed request transfers, because room was made for it. -/
theorem fetchWordRunsAtTheNextStep : Obligations.FetchWordRunsAtTheNextStep := by
  unfold Obligations.FetchWordRunsAtTheNextStep
  intro s nbits w hbits hw
  rw [withFetchWord_of_lt s hbits hw]
  have hreq := placeRequest_transfers (BitVec.ofNat 68 w) (makeRoom_reqReady s)
  have hrequest := placeRequest_request (BitVec.ofNat 68 w) (makeRoom s)
  refine ⟨by rw [commandAt_of_request hreq, hrequest], decodeTableWord_of_lt hbits hw, _, ?_,
    step_of_running rfl rfl⟩
  rw [← exec_of_request hreq, hrequest]

/-- The pins after an edge are those that the host drives next. -/
theorem finishEdge_commandEdge_pins (s : State) : (finishEdge (commandEdge s)).pins = s.pinsAfter := by
  simp [State.pins, State.pinsAfter]

/-- Settles O51: nothing is accepted while `req_ready` is 0, and the host's duty puts the same request on the next pins. -/
theorem heldRequestIsTheOneAccepted : Obligations.HeldRequestIsTheOneAccepted := by
  unfold Obligations.HeldRequestIsTheOneAccepted
  intro s hduty hdone hrst hvalid hready
  obtain ⟨hvalidAfter, hrequestAfter⟩ := hduty hrst hvalid hready
  have hpins := finishEdge_commandEdge_pins s
  refine ⟨_, step_of_running hdone hrst, commandAt_of_no_request (requestTransfers_of_not_ready hready), ?request, ?accepted⟩
  case request => rw [hpins, hrequestAfter]
  case accepted =>
    intro hready' hrst'
    have hreq : (finishEdge (commandEdge s)).requestTransfers = true := by
      rw [State.requestTransfers, hrst', hready', hpins, hvalidAfter]
      rfl
    rw [commandAt_of_request hreq, hpins, hrequestAfter]

end Sys2Proof.Machine
end

