-- ==== Sys2Proof/Proofs/Invariant.lean ====
section
/-! The invariant over an edge, and the output registers after it (rules R26, R29, R32, R35). -/

namespace Sys2Proof.Machine

/-! ### The output registers -/

theorem presented_eq_some_iff {lat : Nat} {q : List QEntry} {r : Response} :
    presented lat q = some r ↔ ∃ e es, q = e :: es ∧ lat ≤ e.age ∧ e.rsp = r := by
  cases q with
  | nil => simp [presented]
  | cons e es => simp [presented]

/-- A presented response stays presented when its cycle ends, whatever joins `Q` behind it. -/
theorem presented_tick_append {lat : Nat} {q : List QEntry} {r : Response} (h : presented lat q = some r)
    (new : List QEntry) : presented lat ((q ++ new).map QEntry.tick) = some r := by
  obtain ⟨e, es, rfl, hage, rfl⟩ := presented_eq_some_iff.mp h
  exact presented_eq_some_iff.mpr ⟨e.tick, (es ++ new).map QEntry.tick, rfl, Nat.le_succ_of_le hage, rfl⟩

/-- The output registers present the oldest entry of `Q` as rule R32 says: the part of `Inv` that speaks of them, which
every edge establishes. -/
structure OutputsPresentQueue (s : State) : Prop where
  valid : s.rspValid = (presented s.params.lat s.queue).isSome
  held : ∀ r, presented s.params.lat s.queue = some r → s.rspData = r.data ∧ s.rspCode = r.code

theorem Inv.outputs {s : State} (h : Inv s) : OutputsPresentQueue s := ⟨h.valid, h.held⟩

theorem finishEdge_outputs (u : State) : OutputsPresentQueue (finishEdge u) where
  valid := by simp
  held r hr := by
    rw [finishEdge_params, finishEdge_queue] at hr
    simp [hr]

theorem resetEdge_outputs (s : State) : OutputsPresentQueue (resetEdge s) where
  valid := rfl
  held _ hr := nomatch hr

theorem step_outputs {s t : State} (h : step s = .next t) : OutputsPresentQueue t := by
  obtain ⟨-, rfl⟩ | ⟨-, -, rfl⟩ := step_next_cases h
  · exact resetEdge_outputs s
  · exact finishEdge_outputs _

section

variable {s : State} (h : OutputsPresentQueue s)
include h

theorem OutputsPresentQueue.rspValid_iff : s.rspValid = true ↔ ∃ e q, s.queue = e :: q ∧ s.params.lat ≤ e.age := by
  rw [h.valid, Option.isSome_iff_exists]
  simp only [presented_eq_some_iff]
  constructor
  · rintro ⟨_, e, q, hq, hage, -⟩
    exact ⟨e, q, hq, hage⟩
  · rintro ⟨e, q, hq, hage⟩
    exact ⟨e.rsp, e, q, hq, hage, rfl⟩

theorem OutputsPresentQueue.ports {e : QEntry} {q : List QEntry} (hq : s.queue = e :: q) (hage : s.params.lat ≤ e.age) :
    s.rspData = e.rsp.data ∧ s.rspCode = e.rsp.code :=
  h.held e.rsp (presented_eq_some_iff.mpr ⟨e, q, hq, hage, rfl⟩)

/-- What a valid response on the ports is: the presented one, on all three registers. -/
theorem OutputsPresentQueue.exists_presented (hvalid : s.rspValid = true) :
    ∃ r, presented s.params.lat s.queue = some r ∧ s.rspData = r.data ∧ s.rspCode = r.code := by
  rw [h.valid, Option.isSome_iff_exists] at hvalid
  obtain ⟨r, hr⟩ := hvalid
  exact ⟨r, hr, h.held r hr⟩

end

/-- Settles O46, from the output registers of either kind of edge. -/
theorem outputsAfterAnEdge : Obligations.OutputsAfterAnEdge := by
  unfold Obligations.OutputsAfterAnEdge
  intro s t hstep
  have hout := step_outputs hstep
  refine ⟨?ready, hout.rspValid_iff, fun e q => hout.ports⟩
  case ready =>
    obtain ⟨hrst, rfl⟩ | ⟨hrst, -, rfl⟩ := step_next_cases hstep
    · simp [hrst]
    · simp [hrst]

/-- Settles O48: no response leaves `Q`, so the same entry is presented after the edge. -/
theorem responseIsHeldUntilItTransfers : Obligations.ResponseIsHeldUntilItTransfers := by
  unfold Obligations.ResponseIsHeldUntilItTransfers
  intro s hinv hdone hvalid hrst hnotTaken
  obtain ⟨r, hr, hdata, hcode⟩ := hinv.outputs.exists_presented hvalid
  have hnone := responseTransfers_of_not_taken hnotTaken
  have hr' : presented s.params.lat ((commandEdge s).queue.map QEntry.tick) = some r := by
    rw [commandEdge_queue, hnone]
    exact presented_tick_append hr (acceptedEntries s)
  have hvalid' : (finishEdge (commandEdge s)).rspValid = true := by simp [hr']
  have hdata' : (finishEdge (commandEdge s)).rspData = s.rspData := by simp [hr', hdata]
  have hcode' : (finishEdge (commandEdge s)).rspCode = s.rspCode := by simp [hr', hcode]
  refine ⟨_, step_of_running hdone hrst, hvalid', hdata', hcode', ?_⟩
  rw [hostReads, hostReads, hvalid', hvalid, hdata', hcode']

/-! ### The invariant -/

/-- A block that is empty and presents and accepts nothing, as reset leaves it. -/
theorem inv_of_empty {s : State} (hqueue : s.queue = []) (hready : s.reqReady = false) (hvalid : s.rspValid = false)
    (hstatus : s.status = 0) : Inv s where
  depth := by simp [hqueue]
  ready := by simp [hready]
  valid := by simp [hqueue, hvalid, presented]
  held := by simp [hqueue, presented]
  ages := by simp [hqueue]
  aged := by simp [hqueue]
  reserved := by simp [hstatus]

theorem resetEdge_inv (s : State) : Inv (resetEdge s) := inv_of_empty rfl rfl rfl rfl

theorem resetOf_inv (p : Params) : Inv (State.resetOf p) := inv_of_empty rfl rfl rfl rfl

/-- The end of a cycle establishes the invariant from what it asks of `Q` and STATUS alone. -/
theorem finishEdge_inv {u : State} (hdepth : u.queue.length ≤ u.params.qdepth)
    (hages : u.queue.Pairwise fun e f => f.age < e.age) (hstatus : u.status &&& statusBits = u.status) :
    Inv (finishEdge u) where
  depth := by simpa using hdepth
  ready := by simp
  valid := (finishEdge_outputs u).valid
  held := (finishEdge_outputs u).held
  ages := by simpa [List.pairwise_map, QEntry.tick] using hages
  aged := by simp [QEntry.tick]
  reserved := by simpa using hstatus

section

variable {s : State} (h : Inv s)
include h

/-- A request transfers only into room, which a response that leaves at the same edge only widens. -/
theorem Inv.length_commandEdge_le : (commandEdge s).queue.length ≤ s.params.qdepth := by
  have htake : (takeResponse s).queue.length ≤ s.queue.length := by
    rw [takeResponse_queue]
    split <;> simp
  have hqueue : (commandEdge s).queue = (takeResponse s).queue ++ acceptedEntries s := rfl
  rw [hqueue, List.length_append, length_acceptedEntries]
  split
  case isTrue hreq =>
    have hroom := h.ready (reqReady_of_requestTransfers hreq)
    omega
  case isFalse => exact htake.trans h.depth

/-- The accepted entry has age 0, below every entry that stays. -/
theorem Inv.ages_commandEdge : (commandEdge s).queue.Pairwise fun e f => f.age < e.age := by
  have hsub : (takeResponse s).queue.Sublist s.queue := by
    rw [takeResponse_queue]
    split
    · exact List.tail_sublist s.queue
    · exact List.Sublist.refl s.queue
  have hone : (acceptedEntries s).length ≤ 1 := by
    rw [length_acceptedEntries]
    split <;> decide
  refine List.pairwise_append.mpr ⟨h.ages.sublist hsub, ?accepted, ?across⟩
  case accepted =>
    match acceptedEntries s, hone with
    | [], _ => exact List.Pairwise.nil
    | [e], _ => exact List.pairwise_singleton _ e
  case across =>
    intro e he f hf
    rw [age_of_mem_acceptedEntries s hf]
    exact h.aged e (hsub.subset he)

theorem Inv.reserved_commandEdge : (commandEdge s).status &&& statusBits = (commandEdge s).status := by
  rw [commandEdge_status]
  cases commandAt s with
  | none => exact h.reserved
  | some i => exact statusAfter_and_statusBits s.params h.reserved i

theorem Inv.finishEdge_commandEdge : Inv (finishEdge (commandEdge s)) :=
  finishEdge_inv (by rw [commandEdge_params]; exact h.length_commandEdge_le) h.ages_commandEdge h.reserved_commandEdge

end

/-- Settles O44: right after reset `Q` is empty and every register of the invariant is 0. -/
theorem invariantHoldsAtReset : Obligations.InvariantHoldsAtReset := by
  unfold Obligations.InvariantHoldsAtReset
  exact ⟨resetOf_inv, resetOf_inv Params.sample⟩

/-- Settles O45, from the two kinds of edge that answer. -/
theorem everyStepKeepsTheInvariant : Obligations.EveryStepKeepsTheInvariant := by
  unfold Obligations.EveryStepKeepsTheInvariant
  intro s t hinv hstep
  obtain ⟨-, rfl⟩ | ⟨-, hdone, rfl⟩ := step_next_cases hstep
  · exact ⟨resetEdge_inv s, resetEdge_resetDone s⟩
  · exact ⟨(hinv hdone).finishEdge_commandEdge, by rw [finishEdge_resetDone, commandEdge_resetDone, hdone]⟩

end Sys2Proof.Machine
end

