-- ==== Sys2Proof/Proofs/Runs.lean ====
section
/-! Runs of edges without reset: refinement of the command stream, latency and backpressure (rules R45 to R47, R167, R168). -/

namespace Sys2Proof.Machine

/-- What holds of the pins over the next edges, and of the idle pins, holds of the coming edge and of the edges after it. -/
theorem pins_of_forall_take {P : Pins → Prop} {k : Nat} {s : State} (hidle : P Pins.idle)
    (h : ∀ p ∈ s.inputs.take (k + 1), P p) : P s.pins ∧ ∀ p ∈ s.inputs.tail.take k, P p := by
  rw [State.pins]
  cases hinputs : s.inputs with
  | nil => simpa using hidle
  | cons p ps =>
    rw [hinputs, List.take_succ_cons, List.forall_mem_cons] at h
    exact h

/-- A run without reset starts with such an edge and goes on as one. -/
theorem ResetFree.succ {k : Nat} {s : State} (h : ResetFree (k + 1) s) :
    s.pins.rstN = true ∧ ResetFree k (finishEdge (commandEdge s)) := by
  obtain ⟨hrst, htail⟩ := pins_of_forall_take (P := fun p => p.rstN = true) rfl h
  rw [ResetFree, finishEdge_inputs, commandEdge_inputs]
  exact ⟨hrst, htail⟩

section

variable {s t : State} (h : step s = .next t) (k : Nat)
include h

theorem commandsIn_succ_of_next : commandsIn (k + 1) s = (commandAt s).toList ++ commandsIn k t := by
  rw [commandsIn, h]

theorem deliveredIn_succ_of_next : deliveredIn (k + 1) s = (deliveredAt s).toList ++ deliveredIn k t := by
  rw [deliveredIn, h]

end

/-! ### Refinement -/

/-- The responses of a command stream, as the ports will show them. -/
def portsOf (p : Params) (status : Word) (is : List Instr) : List (Word × BitVec 3) :=
  (responsesTo p status is).map Response.ports

theorem portsOf_append (p : Params) (status : Word) (is js : List Instr) :
    portsOf p status (is ++ js) = portsOf p status is ++ portsOf p (statusAfterAll p status is) js := by
  rw [portsOf, responsesTo_append, List.map_append, portsOf, portsOf]

/-- The response that leaves `Q` at an edge is the one on the ports. -/
theorem deliveredAt_append_takeResponse {s : State} (h : OutputsPresentQueue s) :
    (deliveredAt s).toList ++ queuedPorts (takeResponse s) = queuedPorts s := by
  rw [queuedPorts, takeResponse_queue, deliveredAt]
  split
  case isFalse => rfl
  case isTrue htransfers =>
    obtain ⟨r, hr, hdata, hcode⟩ := h.exists_presented (rspValid_of_responseTransfers htransfers)
    obtain ⟨e, q, hq, -, rfl⟩ := presented_eq_some_iff.mp hr
    rw [queuedPorts, hq, hdata, hcode]
    rfl

/-- Over one edge the ports' past and `Q` together grow by the response of the accepted command. -/
theorem deliveredAt_append_queuedPorts {s : State} (h : OutputsPresentQueue s) :
    (deliveredAt s).toList ++ queuedPorts (finishEdge (commandEdge s)) =
      queuedPorts s ++ portsOf s.params s.status (commandAt s).toList := by
  have hticked : queuedPorts (finishEdge (commandEdge s)) =
      queuedPorts (takeResponse s) ++ portsOf s.params s.status (commandAt s).toList := by
    simp [queuedPorts, portsOf, commandEdge, acceptedEntries, QEntry.tick, Function.comp_def]
  rw [hticked, ← List.append_assoc, deliveredAt_append_takeResponse h]

/-- The commuting diagram of rules R45 to R47, over any number of edges: the ports' past and `Q` together hold the old `Q`
and the responses of the accepted commands, and STATUS is what those commands leave. -/
theorem run_refines_commands {k : Nat} {s t : State} (hout : OutputsPresentQueue s) (hdone : s.resetDone = true)
    (hfree : ResetFree k s) (hrun : runEdges k s = some t) :
    deliveredIn k s ++ queuedPorts t = queuedPorts s ++ portsOf s.params s.status (commandsIn k s) ∧
      t.status = statusAfterAll s.params s.status (commandsIn k s) := by
  induction k generalizing s with
  | zero =>
    cases hrun
    exact ⟨(List.append_nil _).symm, rfl⟩
  | succ k ih =>
    obtain ⟨hrst, hfree'⟩ := hfree.succ
    have hstep := step_of_running hdone hrst
    rw [runEdges_succ_of_next hstep] at hrun
    obtain ⟨hports, hstatus⟩ := ih (finishEdge_outputs _) (by simpa using hdone) hfree' hrun
    rw [finishEdge_params, commandEdge_params, finishEdge_status, commandEdge_status] at hports hstatus
    rw [commandsIn_succ_of_next hstep, deliveredIn_succ_of_next hstep, portsOf_append, statusAfterAll_append]
    refine ⟨?_, hstatus⟩
    rw [List.append_assoc, hports, ← List.append_assoc, deliveredAt_append_queuedPorts hout, List.append_assoc]

/-- Settles O49, from the diagram and the whole effect of a command stream. -/
theorem clockedBlockRefinesTheCommandStream : Obligations.ClockedBlockRefinesTheCommandStream := by
  unfold Obligations.ClockedBlockRefinesTheCommandStream
  intro k s t hinv hdone hfree hrun
  obtain ⟨hports, hstatus⟩ := run_refines_commands hinv.outputs hdone hfree hrun
  refine ⟨_, execAll_eq (commandsIn k s) s, hstatus.symm, ?ports, ?length⟩
  case ports =>
    rw [hports]
    simp [queuedPorts, portsOf]
  case length => simp [length_responsesTo]

/-! ### Latency -/

/-- A response whose entry is the oldest in `Q` and too young to be presented stays there, an edge at a time. -/
theorem run_ages_oldest {n : Nat} {s : State} {e : QEntry} {q : List QEntry} (hout : OutputsPresentQueue s)
    (hdone : s.resetDone = true) (hfree : ResetFree n s) (hqueue : s.queue = e :: q) (hage : e.age + n ≤ s.params.lat) :
    ∃ t q', runEdges n s = some t ∧ OutputsPresentQueue t ∧ t.queue = { e with age := e.age + n } :: q' := by
  induction n generalizing s e q with
  | zero => exact ⟨s, q, rfl, hout, hqueue⟩
  | succ n ih =>
    obtain ⟨hrst, hfree'⟩ := hfree.succ
    have hyoung : s.rspValid = false := by
      rw [hout.valid, hqueue, presented, if_neg (by omega)]
      rfl
    have hnext : (finishEdge (commandEdge s)).queue = e.tick :: (q ++ acceptedEntries s).map QEntry.tick := by
      rw [finishEdge_queue, commandEdge_queue, responseTransfers_of_not_valid hyoung, hqueue]
      rfl
    obtain ⟨t, q', hrun, hout', hqueue'⟩ := ih (finishEdge_outputs _) (by simpa using hdone) hfree' hnext
      (by simp [QEntry.tick]; omega)
    refine ⟨t, q', by rw [runEdges_succ_of_next (step_of_running hdone hrst), hrun], hout', ?_⟩
    rw [hqueue', QEntry.tick, Nat.add_right_comm, Nat.add_assoc]

/-- The command accepted into an empty `Q` is alone in it at the end of its edge, with age 1. -/
theorem finishEdge_queue_of_accepted {s : State} (hqueue : s.queue = []) (hreq : s.requestTransfers = true) :
    (finishEdge (commandEdge s)).queue =
      [{ rsp := responseTo s.params s.status (decode s.pins.request), age := 1 }] := by
  rw [finishEdge_queue, commandEdge_queue, hqueue, acceptedEntries, commandAt_of_request hreq]
  simp [responsesTo, QEntry.tick]

/-- Settles O50: the entry has age 1 after its edge and ages by one at each later edge, and is presented at age `LAT`. -/
theorem responseIsValidAfterExactlyLatCycles : Obligations.ResponseIsValidAfterExactlyLatCycles := by
  unfold Obligations.ResponseIsValidAfterExactlyLatCycles
  intro s m hdone hqueue hreq hfree hpos hle
  obtain ⟨n, rfl⟩ := Nat.exists_eq_add_of_le' hpos
  obtain ⟨hrst, hfree'⟩ := hfree.succ
  have hstep := step_of_running hdone hrst
  obtain ⟨t, q, hrun, hout, hqueue'⟩ := run_ages_oldest (n := n) (finishEdge_outputs (commandEdge s)) (by simpa using hdone)
    hfree' (finishEdge_queue_of_accepted hqueue hreq) (by simpa [Nat.add_comm 1] using hle)
  have hrun' : runEdges (n + 1) s = some t := by rw [runEdges_succ_of_next hstep, hrun]
  have hlat : t.params.lat = s.params.lat := by rw [runEdges_keeps_params hrun']
  refine ⟨t, _, _, hrun', exec_eq _ s, by rw [hqueue]; rfl, ?valid, fun hm => hout.ports hqueue' (by simp [hlat]; omega)⟩
  case valid =>
    rw [hout.rspValid_iff, hlat, hqueue']
    constructor
    · rintro ⟨e, es, hcons, hage⟩
      cases hcons
      have hage' : s.params.lat ≤ 1 + n := hage
      omega
    · intro hm
      exact ⟨_, _, rfl, by simp; omega⟩

/-! ### Backpressure -/

theorem Inv.reqReady_of_full {s : State} (h : Inv s) (hfull : s.queue.length = s.params.qdepth) : s.reqReady = false := by
  cases hready : s.reqReady with
  | false => rfl
  | true => exact absurd (h.ready hready) (by omega)

/-- The two sides of an edge move nothing when neither a request nor a response transfers. -/
theorem commandEdge_of_no_transfer {s : State} (hreq : s.requestTransfers = false) (hrsp : s.responseTransfers = false) :
    commandEdge s = s := by
  rw [commandEdge_of_no_request hreq, takeResponse_of_no_response hrsp]

/-- A full block whose host takes nothing is held over any number of edges. -/
theorem full_block_held {k : Nat} {s : State} (hinv : Inv s) (hdone : s.resetDone = true)
    (hfull : s.queue.length = s.params.qdepth) (hpins : ∀ p ∈ s.inputs.take k, p.rstN = true ∧ p.rspReady = false) :
    ∃ t, runEdges k s = some t ∧ t.queue.map QEntry.rsp = s.queue.map QEntry.rsp ∧ t.status = s.status ∧
      t.reqReady = false ∧ commandsIn k s = [] ∧ deliveredIn k s = [] := by
  induction k generalizing s with
  | zero => exact ⟨s, rfl, rfl, rfl, hinv.reqReady_of_full hfull, rfl, rfl⟩
  | succ k ih =>
    obtain ⟨⟨hrst, hnotTaken⟩, hpins'⟩ := pins_of_forall_take ⟨rfl, rfl⟩ hpins
    have hreq := requestTransfers_of_not_ready (hinv.reqReady_of_full hfull)
    have hrsp := responseTransfers_of_not_taken hnotTaken
    have hstep : step s = .next (finishEdge s) := by rw [step_of_running hdone hrst, commandEdge_of_no_transfer hreq hrsp]
    obtain ⟨hinv', hdone'⟩ := everyStepKeepsTheInvariant s _ (fun _ => hinv) hstep
    obtain ⟨t, hrun, hqueue, hstatus, hready, hcommands, hdelivered⟩ := ih hinv' hdone' (by simpa using hfull)
      (by simpa using hpins')
    refine ⟨t, by rw [runEdges_succ_of_next hstep, hrun], ?queue, by rw [hstatus, finishEdge_status], hready, ?commands,
      ?delivered⟩
    case queue =>
      rw [hqueue, finishEdge_queue, List.map_map]
      rfl
    case commands =>
      rw [commandsIn_succ_of_next hstep, commandAt_of_no_request hreq, hcommands]
      rfl
    case delivered =>
      rw [deliveredIn_succ_of_next hstep, deliveredAt_of_no_response hrsp, hdelivered]
      rfl

/-- Settles O52: a full block is held by induction on the edges, and a response that leaves makes room. -/
theorem backpressureHoldsTheBlock : Obligations.BackpressureHoldsTheBlock := by
  unfold Obligations.BackpressureHoldsTheBlock
  refine ⟨fun _ _ => full_block_held, ?lifted⟩
  case lifted =>
    intro s hinv hdone hfull hvalid hrst htaken
    have hreq := requestTransfers_of_not_ready (hinv.reqReady_of_full hfull)
    have hrsp : s.responseTransfers = true := by simp [State.responseTransfers, hrst, hvalid, htaken]
    have hpos := s.params.qdepthPos
    refine ⟨_, step_of_running hdone hrst, ?_⟩
    rw [finishEdge_reqReady, commandEdge_of_no_request hreq, takeResponse_queue, takeResponse_params, if_pos hrsp,
      List.length_tail, decide_eq_true_eq]
    omega

end Sys2Proof.Machine
end

