-- ==== Sys2Proof/Proofs/InterpolateClaims.lean ====
section
/-! Where both interpolation commands agree, how wide their intermediates grow, their boundary values, and the brightness
of an error-free response (rules R83, R91, R94; 93_implementation_defined.md section 1). -/

namespace Sys2Proof.Machine

/-! ### Widths -/

section

variable (p : Params) {t period : Nat}

/-- The offset of a period that an operand can carry is at most the width of the widest segment. -/
theorem apxp_offset_le (c : Cfg) (h : t + 1 < period) (hperiod : period < 2 ^ 32) :
    t - apxpStart c t period ≤ 2 ^ 32 / c.samples := by
  have hoffset := apxp_offset_mul_samples_lt c h
  cases c
  case pli8 => rw [samples_pli8] at hoffset ⊢; omega
  case pli16 => rw [samples_pli16] at hoffset ⊢; omega

theorem memRead_sub_le_satMax (i j : Nat) : memRead p i - memRead p j ≤ p.cfg.satMax :=
  (Nat.sub_le _ _).trans (memRead_le_satMax p i)

/-- Segment `i` starts, multiplied out by N, at or before `t`. -/
theorem apxpIndex_mul_period_le (c : Cfg) (t period : Nat) : apxpIndex c t period * period ≤ t * c.samples :=
  Nat.div_mul_le_self _ _

/-- The value is at most twice MAX even where the width is 0 and the quotient with it. -/
theorem apxpExact_le_two_mul_satMax_of_lt (h : t + 1 < period) : apxpExact p t period ≤ 2 * p.cfg.satMax := by
  rcases Nat.eq_zero_or_pos (apxpWidth p.cfg period) with hdx | hdx
  · have hmax := memRead_le_satMax p (apxpIndex p.cfg t period)
    simp only [apxpExact, hdx, Nat.div_zero]
    omega
  · exact apxpExact_le_two_mul_satMax p h hdx

theorem apxf_offset_lt : apxfScaled t period - apxfStart p.cfg t period < 2 ^ p.cfg.shift := by
  rw [apxfScaled_sub_apxfStart]
  exact Nat.mod_lt _ (Nat.two_pow_pos _)

end

/-- Settles O23: each bound is the one of rules R86 to R88, at the constants of the configuration. -/
theorem intermediatesFitTheirWidths : Obligations.IntermediatesFitTheirWidths := by
  unfold Obligations.IntermediatesFitTheirWidths
  intro p a b h bits t period i dx r d u e
  have ht : t < 2 ^ 32 := a.isLt
  have hperiod : period < 2 ^ 32 := b.isLt
  have hi : i * period ≤ t * p.cfg.samples := apxpIndex_mul_period_le p.cfg t period
  have hdx : dx = period / p.cfg.samples := rfl
  have hr : r ≤ 2 ^ 32 / p.cfg.samples := apxp_offset_le p.cfg h hperiod
  have hrdx : r ≤ dx + 1 := apxp_offset_le_width_succ p.cfg h
  have hd : d ≤ p.cfg.satMax := memRead_sub_le_satMax p (i + 1) i
  have hrd : r * d ≤ 2 ^ 32 / p.cfg.samples * p.cfg.satMax := Nat.mul_le_mul hr hd
  have hrd' : r * d ≤ (dx + 1) * p.cfg.satMax := Nat.mul_le_mul hrdx hd
  have hv : apxpExact p t period ≤ 2 * p.cfg.satMax := apxpExact_le_two_mul_satMax_of_lt p h
  have hshift : t <<< 8 = t * 2 ^ 8 := Nat.shiftLeft_eq t 8
  have htp : apxfScaled t period < 2 ^ 8 := apxfScaled_lt_256 h
  have hu : u < 2 ^ p.cfg.shift := apxf_offset_lt p
  have he : e ≤ p.cfg.satMax := memRead_sub_le_satMax p _ _
  have hue : u * e ≤ 2 ^ p.cfg.shift * p.cfg.satMax := Nat.mul_le_mul hu.le he
  have hf : apxfExact p t period ≤ p.cfg.satMax := apxfExact_le_satMax p h
  obtain hc | hc : p.cfg = .pli8 ∨ p.cfg = .pli16 := by cases p.cfg <;> simp
  · have hbits (small large : Nat) : bits small large = small := if_pos hc
    simp only [hc, hbits, samples_pli8, satMax_pli8, shift_pli8] at hi hdx hr hrd hrd' hv hu hue hf ⊢
    omega
  · have hbits (small large : Nat) : bits small large = large := if_neg (by simp [hc])
    simp only [hc, hbits, samples_pli16, satMax_pli16, shift_pli16] at hi hdx hr hrd hrd' hv hu hue hf ⊢
    omega

/-! ### Agreement of the two commands -/

/-- `APXP`'s value where the width divides the period evenly: the offset is t modulo the width. -/
theorem apxpExact_of_dvd (p : Params) (t : Nat) {period : Nat} (hdvd : p.cfg.samples ∣ period) :
    apxpExact p t period =
      memRead p (apxpIndex p.cfg t period) +
        t % apxpWidth p.cfg period *
          (memRead p (apxpIndex p.cfg t period + 1) - memRead p (apxpIndex p.cfg t period)) / apxpWidth p.cfg period := by
  rw [apxpExact, apxp_offset_of_dvd p.cfg t hdvd]

/-- Where a segment is `2^j` wide, `j <= S`, each time step is `2^(S - j)` scaled parts. -/
theorem apxfScaled_of_two_pow (c : Cfg) {j : Nat} (hj : j ≤ c.shift) (t : Nat) :
    apxfScaled t (c.samples * 2 ^ j) = t * 2 ^ (c.shift - j) := by
  have hparts : 256 = 2 ^ (c.shift - j) * (c.samples * 2 ^ j) := by
    calc 256 = c.samples * 2 ^ c.shift := (samples_mul_two_pow_shift c).symm
      _ = c.samples * (2 ^ (c.shift - j) * 2 ^ j) := by rw [← pow_add, Nat.sub_add_cancel hj]
      _ = 2 ^ (c.shift - j) * (c.samples * 2 ^ j) := by ring
  rw [apxfScaled_eq_div, hparts, ← Nat.mul_assoc,
    Nat.mul_div_cancel _ (Nat.mul_pos (samples_pos c) (Nat.two_pow_pos j))]

/-- Where a segment is `2^j` wide, `j <= S`, both commands weigh its rise by the same fraction (rule R91). -/
theorem apxfExact_eq_apxpExact (p : Params) {j : Nat} (hj : j ≤ p.cfg.shift) (t : Nat) :
    apxfExact p t (p.cfg.samples * 2 ^ j) = apxpExact p t (p.cfg.samples * 2 ^ j) := by
  have hwidth : apxpWidth p.cfg (p.cfg.samples * 2 ^ j) = 2 ^ j := Nat.mul_div_cancel_left _ (samples_pos p.cfg)
  have hpow : 2 ^ p.cfg.shift = 2 ^ j * 2 ^ (p.cfg.shift - j) := by rw [← pow_add, Nat.add_sub_cancel' hj]
  rw [apxfExact_eq_mod, apxpExact_of_dvd p t (Nat.dvd_mul_right _ _), apxfIndex_eq_apxpIndex, hwidth,
    apxfScaled_of_two_pow p.cfg hj, hpow, Nat.mul_mod_mul_right, Nat.mul_right_comm,
    Nat.mul_div_mul_right _ _ (Nat.two_pow_pos _)]

/-- Where N divides the period, `APXP` does not leave its segment, and so not the range (rule R88). -/
theorem apxpExact_le_satMax_of_dvd (p : Params) {t period : Nat} (hdx : 0 < apxpWidth p.cfg period)
    (hdvd : p.cfg.samples ∣ period) : apxpExact p t period ≤ p.cfg.satMax := by
  by_cases hd : memRead p (apxpIndex p.cfg t period + 1) - memRead p (apxpIndex p.cfg t period) = 0
  · rw [apxpExact_of_no_rise p hd]
    exact memRead_le_satMax p _
  · exact (apxpExact_lt_memRead_succ_of_dvd p hdx hdvd hd).le.trans (memRead_le_satMax p _)

/-- The edge rule never raises `OVR`. -/
theorem edgeResult_err_ne_ovr (c : Cfg) (period : Nat) : (edgeResult c period).err ≠ some .ovr := by
  rw [edgeResult]
  split <;> simp

/-- The two commands answer the same, without `OVR`, under the edge rule and for the periods of rule R91. -/
theorem results_agree (p : Params) (t : Nat) {period : Nat}
    (h : period ≤ t + 1 ∨ ∃ j, j ≤ p.cfg.shift ∧ period = p.cfg.samples * 2 ^ j) :
    apxfResult p t period = apxpResult p t period ∧ (apxpResult p t period).err ≠ some .ovr := by
  by_cases hedge : period ≤ t + 1
  case pos =>
    rw [apxpResult_of_edge p hedge, apxfResult_of_edge p hedge]
    exact ⟨rfl, edgeResult_err_ne_ovr p.cfg period⟩
  case neg =>
    obtain ⟨j, hj, rfl⟩ := h.resolve_left hedge
    have hlt := Nat.lt_of_not_le hedge
    have hwidth : 0 < apxpWidth p.cfg (p.cfg.samples * 2 ^ j) := by
      rw [apxpWidth, Nat.mul_div_cancel_left _ (samples_pos p.cfg)]
      exact Nat.two_pow_pos j
    rw [apxfResult_of_lt p hlt, apxfExact_eq_apxpExact p hj,
      apxpResult_of_le_satMax p hlt hwidth.ne' (apxpExact_le_satMax_of_dvd p hwidth (Nat.dvd_mul_right _ _))]
    exact ⟨rfl, by simp⟩

/-- Settles O25: the edge rule answers for the periods 0 and 1, and rule R91's identity for the others. -/
theorem variantsAgreeOnPowerOfTwoPeriods : Obligations.VariantsAgreeOnPowerOfTwoPeriods := by
  unfold Obligations.VariantsAgreeOnPowerOfTwoPeriods
  intro s t period hperiod
  have hcase : period.toNat ≤ t.toNat + 1 ∨
      ∃ j, j ≤ s.params.cfg.shift ∧ period.toNat = s.params.cfg.samples * 2 ^ j := by
    obtain h | h | h := hperiod
    · exact .inl (by omega)
    · exact .inl (by omega)
    · exact .inr h
  obtain ⟨hagree, hovr⟩ := results_agree s.params t.toNat hcase
  exact ⟨_, _, hovr, rfl, exec_apxp t period s, by rw [exec_apxf, hagree]⟩

/-! ### Boundary values -/

theorem apxpWidth_pos {c : Cfg} {period : Nat} (h : c.samples ≤ period) : 0 < apxpWidth c period :=
  Nat.div_pos h (samples_pos c)

theorem two_le_samples (c : Cfg) : 2 ≤ c.samples := by
  cases c <;> decide

/-- At a segment's start the value is the segment's first word. -/
theorem apxpExact_of_start (p : Params) {t period : Nat} (h : t = apxpStart p.cfg t period) :
    apxpExact p t period = memRead p (apxpIndex p.cfg t period) := by
  have hoffset : t - apxpStart p.cfg t period = 0 := by omega
  simp [apxpExact, hoffset]

/-- Rule R94 (c): the anchor at a segment's start. -/
theorem apxpResult_of_start (p : Params) {t period : Nat} (hlt : t + 1 < period) (hn : p.cfg.samples ≤ period)
    (h : t = apxpStart p.cfg t period) :
    apxpResult p t period = { data := zext32 (memRead p (apxpIndex p.cfg t period)), err := none } := by
  have hexact := apxpExact_of_start p h
  rw [apxpResult_of_le_satMax p hlt (apxpWidth_pos hn).ne' (hexact ▸ memRead_le_satMax p _), hexact]

/-- Rule R94 (b) for `APXP`: time 0 is the start of segment 0, whose first word is 0. -/
theorem apxpResult_zero (p : Params) {period : Nat} (hn : p.cfg.samples ≤ period) :
    apxpResult p 0 period = { data := 0, err := none } := by
  have hindex : apxpIndex p.cfg 0 period = 0 := by simp [apxpIndex]
  have hstart : 0 = apxpStart p.cfg 0 period := by simp [apxpStart, hindex]
  have hlt : 0 + 1 < period := (two_le_samples p.cfg).trans hn
  rw [apxpResult_of_start p hlt hn hstart, hindex, memRead_first]
  rfl

/-- Rule R94 (b) for `APXF`. -/
theorem apxfResult_zero (p : Params) {period : Nat} (h : 2 ≤ period) :
    apxfResult p 0 period = { data := 0, err := none } := by
  have hexact : apxfExact p 0 period = 0 := by
    simp [apxfExact_eq_mod, apxfIndex_eq_div, apxfScaled_eq_div, memRead_first]
  rw [apxfResult_of_lt p h, hexact]
  rfl

/-- Rule R94 (a): where the edge rule fires with a proper period, both commands answer MAX. -/
theorem results_of_edge (p : Params) {t period : Nat} (hpos : 1 ≤ period) (hedge : period ≤ t + 1) :
    apxpResult p t period = { data := zext32 p.cfg.satMax, err := none } ∧
    apxfResult p t period = { data := zext32 p.cfg.satMax, err := none } := by
  rw [apxpResult_of_edge p hedge, apxfResult_of_edge p hedge, edgeResult_of_ne_zero _ (Nat.ne_of_gt hpos)]
  exact ⟨rfl, rfl⟩

/-- Settles O27, from the edge rule, the values at time 0 and at a segment's start, and the width of 0 below N. -/
theorem boundaryAndLeadingAnchor : Obligations.BoundaryAndLeadingAnchor := by
  unfold Obligations.BoundaryAndLeadingAnchor
  intro p period max
  refine ⟨fun hpos => results_of_edge p hpos (by omega), apxfResult_zero p, apxpResult_zero p,
    fun _ => results_of_edge p le_rfl le_rfl, fun hpos hbelow => ?divz, fun t => apxpResult_of_start p⟩
  case divz =>
    have hn := samples_pos p.cfg
    exact apxpResult_of_width_zero p hpos (Nat.div_eq_of_lt (by omega))

/-! ### Error-free brightness -/

theorem toNat_apxpResult_of_edge (p : Params) {t period : Nat} (h : period ≤ t + 1) :
    (apxpResult p t period).data.toNat = p.cfg.satMax := by
  rw [apxpResult_of_edge p h]
  exact toNat_zext32_of_le_satMax le_rfl

/-- Under the edge rule an error-free response excludes period 0. -/
theorem pos_of_edgeResult_errorFree {c : Cfg} {period : Nat} (h : ErrorFree (edgeResult c period)) : 1 ≤ period := by
  by_contra hpos
  obtain rfl : period = 0 := by omega
  cases h

/-- Before the end of the period an error-free `APXP` has neither divided by 0 nor left the range. -/
theorem apxpExact_le_satMax_of_errorFree (p : Params) {t period : Nat} (hlt : t + 1 < period)
    (h : ErrorFree (apxpResult p t period)) :
    apxpExact p t period ≤ p.cfg.satMax ∧ (apxpResult p t period).data = zext32 (apxpExact p t period) := by
  by_cases hdx : apxpWidth p.cfg period = 0
  · rw [apxpResult_of_width_zero p hlt hdx] at h
    cases h
  by_cases hv : p.cfg.satMax < apxpExact p t period
  · rw [apxpResult_of_overflow p hlt hdx hv] at h
    cases h
  have hle := Nat.le_of_not_lt hv
  exact ⟨hle, by rw [apxpResult_of_le_satMax p hlt hdx hle]⟩

/-- Settles O28, by the edge rule's test. -/
theorem errorFreeBrightnessIsExact : Obligations.ErrorFreeBrightnessIsExact := by
  unfold Obligations.ErrorFreeBrightnessIsExact
  intro p t period
  by_cases hedge : period ≤ t + 1
  case pos =>
    rw [if_pos hedge, if_pos hedge, toNat_apxpResult_of_edge p hedge, toNat_apxfResult_of_edge p hedge,
      apxpResult_of_edge p hedge, apxfResult_of_edge p hedge]
    exact ⟨fun h => ⟨pos_of_edgeResult_errorFree h, le_rfl, rfl⟩, fun h => ⟨pos_of_edgeResult_errorFree h, le_rfl, rfl⟩⟩
  case neg =>
    have hlt := Nat.lt_of_not_le hedge
    rw [if_neg hedge, if_neg hedge, toNat_apxfResult_of_lt p hlt]
    refine ⟨fun h => ?apxp, fun _ => ⟨by omega, apxfExact_le_satMax p hlt, rfl⟩⟩
    case apxp =>
      obtain ⟨hle, hdata⟩ := apxpExact_le_satMax_of_errorFree p hlt h
      rw [hdata, toNat_zext32_of_le_satMax hle]
      exact ⟨by omega, hle, rfl⟩

end Sys2Proof.Machine
end
